-- ==== Sys2Proof/Word.lean ====
section
/-! DEFINITION. The word types of the block (00_scope.md R8). Every value is unsigned; every widening is zero
extension (R9). -/

namespace Sys2Proof

/-- One byte, bit 7 the most significant (R8). -/
abbrev Byte := BitVec 8

/-- One bit: a channel, a line level (R24, R25, R26). -/
abbrev Bit := BitVec 1

end Sys2Proof
end

