-- ==== Sys2Proof/Config.lean ====
section
/-! DEFINITION. The implementation parameters of 00_scope.md R7, each at the value this hardware takes (log 7).
The controller instruction values of the scripts are no parameters (R99): they stand in Machine/Operands.lean. -/

namespace Sys2Proof.Config

/-- `ROWS`: rows of the line buffer (R7, R20). -/
def rows : Nat := 4

/-- `COLS`: cells per row (R7, R20). -/
def cols : Nat := 16

/-- `FILL`: the value of a cell never written (R7, R40). -/
def fill : Byte := 0x20

/-- `SYNC_I`: synchronization byte of the instruction channel (R7, R91). -/
def syncI : Byte := 0xF8

/-- `SYNC_D`: synchronization byte of the data channel (R7, R91). -/
def syncD : Byte := 0xFA

/-- `CLR_OP`: the instruction value that takes the long settle (R7, R112). -/
def clrOp : Byte := 0x01

/-- `T_SHORT` in microseconds (R7). -/
def tShort : Nat := 72

/-- `T_CLEAR` in microseconds (R7). -/
def tClear : Nat := 1600

/-- `T_FS1` in microseconds (R7). -/
def tFs1 : Nat := 100

/-- `T_FS2` in microseconds (R7). -/
def tFs2 : Nat := 47

/-- `T_DISP` in microseconds (R7). -/
def tDisp : Nat := 100

/-- `T_RCLR` in microseconds, a total that includes the clear settle (R7, R132). -/
def tRclr : Nat := 10000

/-- `CLK_PER_US`: clock cycles per microsecond (R7, R11). -/
def clkPerUs : Nat := 1

/-- `N_x = T_x * CLK_PER_US` (R7, R11). -/
def cycles (t : Nat) : Nat := t * clkPerUs

/-- `N_SHORT`. -/
def nShort : Nat := cycles tShort

/-- `N_CLEAR`. -/
def nClear : Nat := cycles tClear

/-- `N_FS1`. -/
def nFs1 : Nat := cycles tFs1

/-- `N_FS2`. -/
def nFs2 : Nat := cycles tFs2

/-- `N_DISP`. -/
def nDisp : Nat := cycles tDisp

/-- `N_RCLR`. -/
def nRclr : Nat := cycles tRclr

/-- `N_RMARGIN = N_RCLR - N_CLEAR`, the margin added after the clear settle in RESET (R7). -/
def nRmargin : Nat := nRclr - nClear

/-- The largest of the cycle counts `N_x`, the bound of R189 (b) on the timer. -/
def nMax : Nat := max nRclr (max nClear (max nShort (max nFs1 (max nFs2 nDisp))))

/-- `TW`: width of the timer in bits (R7, R29). -/
abbrev timerWidth : Nat := 14

/-- `CS_ACTIVE`: level of the `cs_rs` line when asserted (R7, R24). -/
def csActive : Bit := 1

/-- `BL_ON`: level of the `bl` line for on (R7, R25). -/
def blOn : Bit := 1

end Sys2Proof.Config
end

