-- ==== Sys2Proof/Syntax.lean ====
section
/-! DEFINITION. The instructions: one constructor for each row of spec/opcode_table.json. Seven commands of the
command stream (30_encoding.md R82) and the two wire-frame rows, the micro-operations `WRITE(0, v)` and `WRITE(1, v)`
(40_frame_encoder.md R110). -/

namespace Sys2Proof

/-- One command of the host, or one frame micro-operation of the sequencer. -/
inductive Instr where
  /-- SENDI: send one controller instruction (R116). -/
  | sendi (v : Byte)
  /-- SENDD: send one byte of display data (R117). -/
  | sendd (v : Byte)
  /-- RESET: run the initialisation sequence (R130). -/
  | reset
  /-- CLEAR: clear the display, address to home (R160). -/
  | clear
  /-- SETBL: switch the backlight line; the whole operand byte is kept, only bit 0 acts (R84, R162). -/
  | setbl (imm8 : Byte)
  /-- SETTEXT: write text into one row of the line buffer; `len` is the text's length (R85, R146). -/
  | settext (row col : Byte) (text : List Byte)
  /-- RENDER: send the whole line buffer as display data (R148). -/
  | render
  /-- FRAME.I: the micro-operation `WRITE(0, v)`, one frame on the instruction channel (R110). -/
  | frameI (v : Byte)
  /-- FRAME.D: the micro-operation `WRITE(1, v)`, one frame on the data channel (R110). -/
  | frameD (v : Byte)
  deriving DecidableEq, Repr

/-- The rows of the command stream; the other two are wire frames, which the block produces (R89). -/
def Instr.isCommand : Instr → Bool
  | .sendi _ => true
  | .sendd _ => true
  | .reset => true
  | .clear => true
  | .setbl _ => true
  | .settext _ _ _ => true
  | .render => true
  | .frameI _ => false
  | .frameD _ => false

end Sys2Proof
end

