-- ==== Sys2Proof/WellFormed.lean ====
section
/-! DEFINITION. Which instructions an encoding exists for. Every operand value is legal (30_encoding.md R88); the one
check is that the length byte of SETTEXT can hold the length of the text, 0..255 (R85; log 22). -/

namespace Sys2Proof

/-- The instruction has an encoding. -/
def Instr.wf : Instr → Bool
  | .sendi _ => true
  | .sendd _ => true
  | .reset => true
  | .clear => true
  | .setbl _ => true
  | .settext _ _ text => decide (text.length ≤ 255)
  | .render => true
  | .frameI _ => true
  | .frameD _ => true

end Sys2Proof
end

