-- ==== Sys2Proof/Decode.lean ====
section
/-! DEFINITION. The two encodings of 30_encoding.md: the command stream the block consumes (R80 to R88) and the wire
frame it produces (R89 to R96). First the decoders, total on any bytes, then the encoders, then the numbering of
spec/opcode_table.json. -/

namespace Sys2Proof

/-- What the command decoder reads at the head of a byte stream. -/
inductive Decoded where
  /-- A whole command and how many bytes it takes (R86). -/
  | instr (i : Instr) (n : Nat)
  /-- A reserved opcode byte, 0x00 or 0x08..0xFF (R87). -/
  | reserved (b : Byte)
  /-- The bytes offered so far end inside a command, or there are none (R205 (b)). -/
  | incomplete
  deriving DecidableEq, Repr

/-- The command at the head of the stream: the opcode byte alone selects it (R80, R82), the operand bytes are used
as they stand (R83), and SETTEXT takes `4 + len` bytes (R85, R86). -/
def decode : List Byte → Decoded
  | [] => .incomplete
  | b :: bs =>
    if b = 0x01 then
      match bs with
      | v :: _ => .instr (.sendi v) 2
      | [] => .incomplete
    else if b = 0x02 then
      match bs with
      | v :: _ => .instr (.sendd v) 2
      | [] => .incomplete
    else if b = 0x03 then .instr .reset 1
    else if b = 0x04 then .instr .clear 1
    else if b = 0x05 then
      match bs with
      | v :: _ => .instr (.setbl v) 2
      | [] => .incomplete
    else if b = 0x06 then
      match bs with
      | row :: col :: len :: rest =>
        if len.toNat ≤ rest.length then .instr (.settext row col (rest.take len.toNat)) (4 + len.toNat)
        else .incomplete
      | _ => .incomplete
    else if b = 0x07 then .instr .render 1
    else .reserved b

/-- Why three bytes of the wire are no frame of the block (R94). -/
inductive FrameReject where
  /-- Fewer than three bytes (R89). -/
  | short
  /-- The first byte is neither 0xF8 nor 0xFA (R91, R94). -/
  | badSync (b : Byte)
  /-- The low four bits of the second byte are not zero (R92). -/
  | badHigh (b : Byte)
  /-- The low four bits of the third byte are not zero (R93). -/
  | badLow (b : Byte)
  deriving DecidableEq, Repr

/-- What the frame decoder reads at the head of the wire's bytes. -/
inductive FrameDecoded where
  /-- One frame. -/
  | frame (i : Instr)
  /-- Not a frame of the block. -/
  | rejected (r : FrameReject)
  deriving DecidableEq, Repr

/-- Byte 2 of a frame, the high nibble left-aligned: `v & 0xF0` (R92). -/
def highByte (v : Byte) : Byte := v &&& 0xF0

/-- Byte 3 of a frame, the low nibble left-aligned: `(v << 4) & 0xF0` (R93). -/
def lowByte (v : Byte) : Byte := (v <<< 4) &&& 0xF0

/-- Byte 1 of a frame: the channel selects the synchronization byte (R2 (b), R91, R111). -/
def syncByte (ch : Bit) : Byte := if ch = 1 then Config.syncD else Config.syncI

/-- The value a frame carries: `byte2 | (byte3 >> 4)` (R96). -/
def frameValue (b2 b3 : Byte) : Byte := b2 ||| (b3 >>> 4)

/-- Reads one frame back (R96), refusing what the block never produces (R94). -/
def decodeFrame : List Byte → FrameDecoded
  | b1 :: b2 :: b3 :: _ =>
    if b2 &&& 0x0F ≠ 0 then .rejected (.badHigh b2)
    else if b3 &&& 0x0F ≠ 0 then .rejected (.badLow b3)
    else if b1 = Config.syncI then .frame (.frameI (frameValue b2 b3))
    else if b1 = Config.syncD then .frame (.frameD (frameValue b2 b3))
    else .rejected (.badSync b1)
  | _ => .rejected .short

/-- The three bytes of a frame, in the order they are sent (R89, R90). -/
def frameBytes (ch : Bit) (v : Byte) : List Byte := [syncByte ch, highByte v, lowByte v]

/-- The bytes of an instruction, first byte first: a command's in the command stream (R80, R82, R85), a frame's on
the wire (R89). -/
def encode : Instr → List Byte
  | .sendi v => [0x01, v]
  | .sendd v => [0x02, v]
  | .reset => [0x03]
  | .clear => [0x04]
  | .setbl imm8 => [0x05, imm8]
  | .settext row col text => 0x06 :: row :: col :: BitVec.ofNat 8 text.length :: text
  | .render => [0x07]
  | .frameI v => frameBytes 0 v
  | .frameD v => frameBytes 1 v

/-- The length of an instruction in bytes (R86, R89). -/
def Instr.length : Instr → Nat
  | .sendi _ => 2
  | .sendd _ => 2
  | .reset => 1
  | .clear => 1
  | .setbl _ => 2
  | .settext _ _ text => 4 + text.length
  | .render => 1
  | .frameI _ => 3
  | .frameD _ => 3

/-- The 24 bits of a frame as one number, byte 1 in bits 23..16, byte 2 in bits 15..8, byte 3 in bits 7..0 (R90). -/
def frameWord (ch : Bit) (v : Byte) : BitVec 24 := syncByte ch ++ highByte v ++ lowByte v

/-- The bits of a byte as they leave the transport, bit 7 first (R54, decision D5; log 20). -/
def wireBitsOfByte (b : Byte) : List Bool :=
  [b.getLsbD 7, b.getLsbD 6, b.getLsbD 5, b.getLsbD 4, b.getLsbD 3, b.getLsbD 2, b.getLsbD 1, b.getLsbD 0]

/-- The 24 bits of a frame in wire order (R54, R90). -/
def wireBits (ch : Bit) (v : Byte) : List Bool := (frameBytes ch v).flatMap wireBitsOfByte

/-! ## The opcode table's numbering

spec/opcode_table.json numbers a row's bits with the FIRST byte the most significant (R80: `F1` opcode = bits 15..8),
so a row of `nbits` bits is laid out highest byte first (log 4). -/

/-- The low `k` bytes of `w`, the highest first. -/
def bytesHighFirst : Nat → Nat → List Byte
  | 0, _ => []
  | k + 1, w => BitVec.ofNat 8 (w >>> (8 * k)) :: bytesHighFirst k w

/-- The bytes of a table word, followed by zeros up to the longest instruction (SETTEXT with 255 text bytes, R86). -/
def tableBytes (nbits w : Nat) : List Byte :=
  bytesHighFirst ((nbits + 7) / 8) w ++ List.replicate 255 0

/-- The instruction a table word spells. The two wire-frame rows are the only rows of 24 bits, and their first byte
is a reserved opcode of the command stream, so the two spaces of the table do not meet (R87, R91; log 3). -/
def decodeTableWord (nbits w : Nat) : Option Instr :=
  match decode (tableBytes nbits w) with
  | .instr i _ => some i
  | .incomplete => none
  | .reserved _ =>
    if nbits = 24 then
      match decodeFrame (tableBytes nbits w) with
      | .frame i => some i
      | .rejected _ => none
    else none

end Sys2Proof
end

