-- ==== Sys2Proof/Machine/State.lean ====
section
/-! DEFINITION. The state of the block: every row of the overview table of 10_state.md section 1, and two fields of
the model's own, the observable trace (00_scope.md R12) and what the host still offers (R6, R35; log 2). Plain data.
The reset state is 10_state.md R40. -/

namespace Sys2Proof.Machine

/-- The values of `init` (R23). -/
inductive Init where
  | uninit
  | ready
  deriving DecidableEq, Repr

/-- The values of `mstate` (R28). -/
inductive MState where
  /-- `M_BOOT`: after hardware reset, before the automatic RESET. -/
  | boot
  /-- `M_OP`: idle, waiting for an opcode byte. -/
  | op
  /-- `M_ARG`: collecting operand bytes. -/
  | arg
  /-- `M_RUN`: executing a script. -/
  | run
  deriving DecidableEq, Repr

/-- The values of `kind`: which script is executed (R28). -/
inductive Kind where
  /-- `K_ONE`: one frame, SENDI or SENDD. -/
  | one
  /-- `K_RESET`. -/
  | reset
  /-- `K_CLEAR`. -/
  | clear
  /-- `K_RENDER`. -/
  | render
  deriving DecidableEq, Repr

/-- The values of `phase` (R28). -/
inductive Phase where
  /-- `P_IDLE`. -/
  | idle
  /-- `P_B1`: offering the sync byte. -/
  | b1
  /-- `P_B2`: offering the high-nibble byte. -/
  | b2
  /-- `P_B3`: offering the low-nibble byte. -/
  | b3
  /-- `P_WAIT`: timer running. -/
  | wait
  deriving DecidableEq, Repr

/-- The observable events of the block (R12). -/
inductive Event where
  /-- `TX(b)`: the transport accepted byte `b`. -/
  | tx (b : Byte)
  /-- `WAIT(n)`: the block held off for `n` cycles; a promise of at least `n` (R13; log 8). -/
  | wait (n : Nat)
  /-- `CS(x)`: the `cs_rs` register was written with level `x`. -/
  | cs (x : Bit)
  /-- `BL(x)`: the `bl` register was written with level `x`. -/
  | bl (x : Bit)
  /-- `RET`: the current command is complete. -/
  | ret
  deriving DecidableEq, Repr

/-- What the host offers: a command byte on the command port (R35), or hardware reset (R230). -/
inductive HostItem where
  /-- A command byte. -/
  | byte (b : Byte)
  /-- `rst = 1` on one clock edge. -/
  | rst
  deriving DecidableEq, Repr

/-- The line buffer as memory: (linear address, cell) pairs in one canonical form; an address that is not listed
holds `FILL` (R40, R50; log 15). -/
abbrev Memory := List Host.Cell

/-- Addresses rise strictly from `lo`, stay below 64 (R50), and no listed cell holds `FILL`. -/
def Memory.wfFrom : Nat → Memory → Bool
  | _, [] => true
  | lo, (a, v) :: rest =>
    decide (lo ≤ a) && decide (a < Config.rows * Config.cols) && decide (v ≠ Config.fill) && Memory.wfFrom (a + 1) rest

/-- The canonical form of the line buffer. -/
def Memory.wf (m : Memory) : Bool := Memory.wfFrom 0 m

/-- The state of the block (10_state.md section 1) with the trace and the host's offers. -/
structure State where
  /-- `LB`, the line buffer (R20). -/
  lb : Memory
  /-- `init` (R23). -/
  init : Init
  /-- `cs_rs`, the register-select/chip-select line (R24). -/
  csRs : Bit
  /-- `bl`, the backlight-enable line (R25). -/
  bl : Bit
  /-- `val`, the value of the frame in progress (R26). -/
  val : Byte
  /-- `ch`, the channel of the frame in progress (R26). -/
  ch : Bit
  /-- `op`, the opcode being collected (R27). -/
  op : BitVec 3
  /-- `argn`, which operand byte of SETTEXT comes next (R27). -/
  argn : BitVec 2
  /-- `a_row` (R27). -/
  aRow : Byte
  /-- `a_col` (R27). -/
  aCol : Byte
  /-- `a_len` (R27). -/
  aLen : Byte
  /-- `a_idx`: text bytes taken so far (R27). -/
  aIdx : Byte
  /-- `mstate` (R28). -/
  mstate : MState
  /-- `kind` (R28). -/
  kind : Kind
  /-- `step`: index of the current micro-operation (R28). -/
  step : BitVec 7
  /-- `phase` (R28). -/
  phase : Phase
  /-- `timer`, the settle timer (R29, R214). -/
  timer : BitVec Config.timerWidth
  /-- The model's own: what the host still offers, the next item first (log 2). -/
  hostIn : List HostItem
  /-- The model's own: the events so far, the oldest first (R12, R186; log 2). -/
  trace : List Event
  deriving DecidableEq, Repr

/-- Why a step stops. The block itself raises no exception (R200): both names stand for a position of the sequencer
that no rule describes and no run from reset reaches (R189; log 10). -/
inductive Fault where
  /-- Raised by the sequencer (`startFrom`, `loadedCount`, `runEdge`, `finishFrame`) when `mstate = M_RUN` and
  `(kind, step)` is no position of a script, or `phase = P_IDLE`. Safe: the model stops where the spec says nothing. -/
  | offScript (kind : Kind) (step : BitVec 7)
  /-- Raised by `takeOperand` when `mstate = M_ARG` and `op` is none of SENDI, SENDD, SETBL, SETTEXT. Safe, as above. -/
  | noOperandCase (op : BitVec 3)
  deriving DecidableEq, Repr

/-- Why an instruction has no meaning. -/
inductive Refusal where
  /-- Raised by an arm of `exec` whose instruction has no meaning yet; no arm does. Safe. -/
  | notModelled (mnemonic : String)
  deriving DecidableEq, Repr

/-- The state right after hardware reset (R40): every cell `FILL`, `init = UNINIT`, lines inactive, every latch 0,
`mstate = M_BOOT`, `kind = K_RESET`, `phase = P_IDLE`. The trace and the host's offers are empty (log 2). -/
def State.reset : State where
  lb := []
  init := .uninit
  csRs := 0
  bl := 0
  val := 0
  ch := 0
  op := 0
  argn := 0
  aRow := 0
  aCol := 0
  aLen := 0
  aIdx := 0
  mstate := .boot
  kind := .reset
  step := 0
  phase := .idle
  timer := 0
  hostIn := []
  trace := []

end Sys2Proof.Machine
end

