-- ==== Sys2Proof/Machine/Ops.lean ====
section
/-! DEFINITION. The shared operations: the line buffer (20_memory.md), the trace (00_scope.md R12), the frame
micro-operation `WRITE` with its settle (40_frame_encoder.md), the extra wait, the end of a command, and hardware
reset, the one change of control from outside (60_exceptions.md R206, 70_reset_and_hazards.md R230). The block takes
no exception and returns from none (R200, R207), so there is no other entry. -/

namespace Sys2Proof.Machine

/-! ## The line buffer -/

/-- `MemRead(a, 1)` (R9): the cell at linear address `a`; a cell never written holds `FILL` (R40). -/
def Memory.read : Memory → Nat → Byte
  | [], _ => Config.fill
  | (k, v) :: rest, a => if a = k then v else Memory.read rest a

/-- The write inside the canonical form: writing `FILL` removes the entry. -/
def Memory.put (a : Nat) (v : Byte) : Memory → Memory
  | [] => if v = Config.fill then [] else [(a, v)]
  | (k, w) :: rest =>
    if a < k then
      if v = Config.fill then (k, w) :: rest else (a, v) :: (k, w) :: rest
    else if a = k then
      if v = Config.fill then rest else (a, v) :: rest
    else (k, w) :: Memory.put a v rest

/-- `MemWrite(a, 1, v)` (R9); a write outside 0..63 is a no-op (R21). -/
def Memory.write (m : Memory) (a : Nat) (v : Byte) : Memory :=
  if a < Config.rows * Config.cols then Memory.put a v m else m

/-- The linear address of a cell: `16*row + column` (R20, R50). -/
def cellAddr (row col : Nat) : Nat := Config.cols * row + col

/-- `LB[row][col]` (R20). -/
def State.cell (s : State) (row col : Nat) : Byte := s.lb.read (cellAddr row col)

/-! ## The trace -/

/-- `emit` for a list of events, in order (R9, R12). -/
def State.emit (s : State) (es : List Event) : State := { s with trace := s.trace ++ es }

/-! ## The frame micro-operation -/

/-- `settle(ch, v)`: the long settle for the instruction value `CLR_OP` and for nothing else (R112). -/
def settle (ch : Bit) (v : Byte) : Nat :=
  if ch = 0 ∧ v = Config.clrOp then Config.nClear else Config.nShort

/-- The events of `WRITE(ch, v)`: three bytes in order, then the settle (R110, R113). -/
def frameEvents (ch : Bit) (v : Byte) : List Event :=
  (frameBytes ch v).map .tx ++ [.wait (settle ch v)]

/-- `WRITE(ch, v)` as one operation (R110): no architectural state changes; the operand latches hold the frame
(R26, R115) and the timer has run down to 1 (R184; log 21). -/
def State.write (ch : Bit) (v : Byte) (s : State) : State :=
  { s with ch := ch, val := v, timer := 1, trace := s.trace ++ frameEvents ch v }

/-- `wait(n)`: an extra wait of `n` cycles (R9, R132); a wait of 0 is skipped (R12, R178). -/
def State.extraWait (n : Nat) (s : State) : State :=
  if n = 0 then s else { s with timer := 1, trace := s.trace ++ [.wait n] }

/-- The end of the script of `kind` at its `END` step: the block is idle and the command has returned (R178). -/
def State.complete (kind : Kind) (step : BitVec 7) (s : State) : State :=
  { s with mstate := .op, kind := kind, step := step, phase := .idle, trace := s.trace ++ [.ret] }

/-- The start of the RESET sequence: `init <- UNINIT`, `cs_rs <- CS_ACTIVE`, event `CS(CS_ACTIVE)` (R130, R131, R176). -/
def State.assertCs (s : State) : State :=
  { s with init := .uninit, csRs := Config.csActive, trace := s.trace ++ [.cs Config.csActive] }

/-! ## Hardware reset -/

/-- Hardware reset: every register takes its reset value, nothing is saved (R230, R234). It is no event, and the
host's remaining offers are not the block's. -/
def State.hardReset (s : State) : State := { State.reset with hostIn := s.hostIn, trace := s.trace }

end Sys2Proof.Machine
end

