-- ==== Sys2Proof/Machine/Operands.lean ====
section
/-! DEFINITION. The operand forms: SETBL's bit (30_encoding.md R84), SETTEXT's row, column and text (20_memory.md R57,
R58; 42_text_buffer_render.md R146), RENDER's cells (R148), and the fixed controller instruction values of the
sequences (30_encoding.md R99). -/

namespace Sys2Proof.Machine

/-- `on = imm8[0]`; bits 7..1 are ignored (R84). -/
def backlightOn (imm8 : Byte) : Bit := imm8.extractLsb' 0 1

/-- The level the `bl` line takes: `BL_ON` for on, the other level for off (R25, R162). -/
def backlightLevel (imm8 : Byte) : Bit :=
  if backlightOn imm8 = 1 then Config.blOn else ~~~Config.blOn

/-- SETTEXT's start is in range: `row <= 3` and `col <= 15` (R57). -/
def startInRange (row col : Byte) : Bool :=
  decide (row.toNat < Config.rows) && decide (col.toNat < Config.cols)

/-- Stores the text from column `col` of row `row` upward; a character past column 15 is dropped (R58). The column
is a natural number: the sum does not wrap (R152). -/
def putText (row : Nat) : Nat → List Byte → Memory → Memory
  | _, [], m => m
  | col, b :: text, m =>
    putText row (col + 1) text (if col < Config.cols then m.write (cellAddr row col) b else m)

/-- What SETTEXT leaves in the line buffer (R146): nothing changes when the start is out of range. -/
def settextMemory (row col : Byte) (text : List Byte) (m : Memory) : Memory :=
  if startInRange row col then putText row.toNat col.toNat text m else m

/-- The order in which RENDER sends the rows: physical rows 0, 2, 1, 3 (R56, R148, R150). -/
def rowOrder : List Nat := [0, 2, 1, 3]

/-- The cells RENDER sends, in order: each row of `rowOrder` from column 0 to column 15 (R148). -/
def renderCells (m : Memory) : List Byte :=
  rowOrder.flatMap fun r => (List.range Config.cols).map fun c => m.read (cellAddr r c)

/-- "function set, 8-bit interface, basic instruction set" (R99). -/
def insFunctionSet : Byte := 0x30

/-- "display on, cursor off, blink off" (R99). -/
def insDisplayOn : Byte := 0x0C

/-- "clear display" (R99). -/
def insClearDisplay : Byte := 0x01

/-- "entry mode set: auto-increment address, no shift" (R99). -/
def insEntryMode : Byte := 0x06

/-- "set address to home" (R99). -/
def insHome : Byte := 0x80

end Sys2Proof.Machine
end

