-- ==== Sys2Proof/Machine/ClearBacklight.lean ====
section
/-! DEFINITION. 43_clear_backlight.md: CLEAR (R160) and SETBL (R162). -/

namespace Sys2Proof.Machine

/-- CLEAR (R160): "clear display" with the long settle, then "set address to home", then `RET`; the line buffer is
not cleared. -/
def execClear (s : State) : Host.Outcome State Fault Refusal :=
  .next (((s.write 0 insClearDisplay).write 0 insHome).complete .clear 2)

/-- SETBL (R162): `bl <- on`, event `BL(on)`, then `RET`; no frame and no wait. -/
def execSetbl (imm8 : Byte) (s : State) : Host.Outcome State Fault Refusal :=
  .next { s with
    op := 5
    bl := backlightLevel imm8
    mstate := .op
    trace := s.trace ++ [.bl (backlightLevel imm8), .ret] }

end Sys2Proof.Machine
end

