-- ==== Sys2Proof/Machine/Frame.lean ====
section
/-! DEFINITION. 40_frame_encoder.md: SENDI (R116), SENDD (R117) and the two frame micro-operations (R110). None can
fail (R114). -/

namespace Sys2Proof.Machine

/-- SENDI v: `WRITE(0, v)`, then `RET` (R116). The decoder's `op` holds 1 and the position is the `END` of `K_ONE`
(R172, R175, R177; log 21). -/
def execSendi (v : Byte) (s : State) : Host.Outcome State Fault Refusal :=
  .next (({ s with op := 1 }.write 0 v).complete .one 1)

/-- SENDD v: `WRITE(1, v)`, then `RET` (R117). -/
def execSendd (v : Byte) (s : State) : Host.Outcome State Fault Refusal :=
  .next (({ s with op := 2 }.write 1 v).complete .one 1)

/-- FRAME.I: the micro-operation `WRITE(0, v)`; it emits no `RET` (R110). -/
def execFrameI (v : Byte) (s : State) : Host.Outcome State Fault Refusal :=
  .next (s.write 0 v)

/-- FRAME.D: the micro-operation `WRITE(1, v)`; it emits no `RET` (R110). -/
def execFrameD (v : Byte) (s : State) : Host.Outcome State Fault Refusal :=
  .next (s.write 1 v)

end Sys2Proof.Machine
end

