-- ==== Sys2Proof/Machine/ResetSequence.lean ====
section
/-! DEFINITION. 41_reset_sequencer.md: the RESET sequence, run by the RESET command and by itself after hardware reset
(70_reset_and_hazards.md R231). -/

namespace Sys2Proof.Machine

/-- Steps 2 to 5 of the sequence: five instruction frames with the extra waits of R132. -/
def resetFrames (s : State) : State :=
  (((((((((s.write 0 insFunctionSet).extraWait Config.nFs1).write 0 insFunctionSet).extraWait Config.nFs2).write 0
    insDisplayOn).extraWait Config.nDisp).write 0 insClearDisplay).extraWait Config.nRmargin).write 0 insEntryMode)

/-- RESET (R130): `init <- UNINIT`, the line asserted, the frames, `init <- READY`, `RET`. `LB` and `bl` are kept
(R41). -/
def execReset (s : State) : Host.Outcome State Fault Refusal :=
  .next ({ resetFrames s.assertCs with init := .ready }.complete .reset 9)

end Sys2Proof.Machine
end

