-- ==== Sys2Proof/Machine/Text.lean ====
section
/-! DEFINITION. 42_text_buffer_render.md: SETTEXT, the only store (R146, R147), and RENDER, the only load (R148). -/

namespace Sys2Proof.Machine

/-- The decoder latches after the last byte of a SETTEXT (R27, R177): with no text the third operand byte was the
last, else `a_idx` is the index of the last text byte (log 21). -/
def State.settextLatches (row col : Byte) (text : List Byte) (s : State) : State :=
  { s with
    op := 6
    argn := if text = [] then 2 else 3
    aRow := row
    aCol := col
    aLen := BitVec.ofNat 8 text.length
    aIdx := BitVec.ofNat 8 (text.length - 1) }

/-- SETTEXT row, col, text (R146): the cells in range are overwritten, the trace is `[RET]`, nothing is sent. -/
def execSettext (row col : Byte) (text : List Byte) (s : State) : Host.Outcome State Fault Refusal :=
  .next { s.settextLatches row col text with
    lb := settextMemory row col text s.lb
    mstate := .op
    trace := s.trace ++ [.ret] }

/-- RENDER (R148): one data frame for each of the 64 cells in the order of `renderCells`, then `RET`; `LB` is
unchanged. -/
def execRender (s : State) : Host.Outcome State Fault Refusal :=
  .next (((renderCells s.lb).foldl (fun t x => t.write 1 x) s).complete .render 64)

end Sys2Proof.Machine
end

