-- ==== Sys2Proof/Machine/Dispatch.lean ====
section
/-! DEFINITION. One arm per instruction: its meaning at the command level (00_scope.md R10). -/

namespace Sys2Proof.Machine

def exec (i : Instr) (s : State) : Host.Outcome State Fault Refusal :=
  match i with
  | .sendi v => Sys2Proof.Machine.execSendi v s
  | .sendd v => Sys2Proof.Machine.execSendd v s
  | .reset => Sys2Proof.Machine.execReset s
  | .clear => Sys2Proof.Machine.execClear s
  | .setbl imm8 => Sys2Proof.Machine.execSetbl imm8 s
  | .settext row col text => Sys2Proof.Machine.execSettext row col text s
  | .render => Sys2Proof.Machine.execRender s
  | .frameI v => Sys2Proof.Machine.execFrameI v s
  | .frameD v => Sys2Proof.Machine.execFrameD v s

end Sys2Proof.Machine
end

