-- ==== Sys2Proof/Machine/Flags.lean ====
section
/-! DEFINITION. The block has no status flags, no condition codes and no predicates (10_state.md R31): nothing here is
written by a command. What stands here is what can be SEEN of the registers: the status outputs and pins of
44_sequencer_fsm.md R171 (10_state.md R34 to R38), and the numeric codes of the enumerations (R23, R28). -/

namespace Sys2Proof.Machine

/-- `cmd_ready`: the block takes an offered command byte (R35, R171). -/
def State.cmdReady (s : State) : Bool := decide (s.mstate = .op) || decide (s.mstate = .arg)

/-- `busy`: a command is executing (R38, R171). -/
def State.busy (s : State) : Bool := decide (s.mstate = .boot) || decide (s.mstate = .run)

/-- `ready`: `init = READY` (R38, R171). -/
def State.isReady (s : State) : Bool := decide (s.init = .ready)

/-- `tx_valid`: the block offers a byte to the transport (R36, R171). -/
def State.txValid (s : State) : Bool :=
  decide (s.phase = .b1) || decide (s.phase = .b2) || decide (s.phase = .b3)

/-- `tx_byte`: the byte offered (R171). While none is offered the reference machine drives 0x00, a value without
meaning (93_implementation_defined.md U6; log 11). -/
def State.txByte (s : State) : Byte :=
  match s.phase with
  | .b1 => syncByte s.ch
  | .b2 => highByte s.val
  | .b3 => lowByte s.val
  | .idle => 0x00
  | .wait => 0x00

/-- The outputs of the block (R34). -/
structure Outputs where
  cmdReady : Bool
  busy : Bool
  ready : Bool
  txValid : Bool
  txByte : Byte
  csRs : Bit
  bl : Bit
  deriving DecidableEq, Repr

/-- Every output is a function of the registers alone (R171); the two pins show their registers (R37). -/
def State.outputs (s : State) : Outputs where
  cmdReady := s.cmdReady
  busy := s.busy
  ready := s.isReady
  txValid := s.txValid
  txByte := s.txByte
  csRs := s.csRs
  bl := s.bl

/-- The code of `init` (R23). -/
def Init.code : Init → BitVec 1
  | .uninit => 0
  | .ready => 1

/-- The code of `mstate` (R28). -/
def MState.code : MState → BitVec 2
  | .boot => 0
  | .op => 1
  | .arg => 2
  | .run => 3

/-- The code of `kind` (R28). -/
def Kind.code : Kind → BitVec 2
  | .one => 0
  | .reset => 1
  | .clear => 2
  | .render => 3

/-- The code of `phase` (R28). -/
def Phase.code : Phase → BitVec 3
  | .idle => 0
  | .b1 => 1
  | .b2 => 2
  | .b3 => 3
  | .wait => 4

end Sys2Proof.Machine
end

