-- ==== Sys2Proof/Machine/Sequencer.lean ====
section
/-! DEFINITION. The cycle level: the reference sequencer of 44_sequencer_fsm.md, one clock edge at a time, over the
same state as the command level. Its scripts are written from the table of R172, not from the commands' meanings, so
that their agreement (R187) says something. -/

namespace Sys2Proof.Machine

/-- The next state of the first part handed to the second; a stop of the first is the stop of both. -/
def andThen (o : Host.Outcome State Fault Refusal) (f : State → Host.Outcome State Fault Refusal) :
    Host.Outcome State Fault Refusal :=
  match o with
  | .next s => f s
  | .fault r => .fault r
  | .refused r => .refused r

/-! ## Scripts (R172) -/

/-- A micro-operation of a script (R172). -/
inductive MicroOp where
  /-- `W(c, v)`: a frame with its settle. -/
  | write (c : Bit) (v : Byte)
  /-- `X(n)`: an extra wait. -/
  | extra (n : Nat)
  /-- `END`. -/
  | done
  deriving DecidableEq, Repr

/-- `rho = [0, 2, 1, 3]`: the row selector with its two bits exchanged (R56, R152). -/
def rho (sel : Nat) : Nat := 2 * (sel % 2) + sel / 2

/-- The `k`-th cell RENDER sends, `LB[rho[k >> 4]][k & 15]` (R56, R172). -/
def renderCell (s : State) (k : Nat) : Byte := s.cell (rho (k >>> 4)) (k &&& 15)

/-- The scripts, written as the table of R172. The script of `K_ONE` sends the latches as the decoder loaded them. -/
def script (kind : Kind) (s : State) : List MicroOp :=
  match kind with
  | .one => [.write s.ch s.val, .done]
  | .reset =>
    [.write 0 0x30, .extra Config.nFs1, .write 0 0x30, .extra Config.nFs2, .write 0 0x0C, .extra Config.nDisp,
      .write 0 0x01, .extra Config.nRmargin, .write 0 0x06, .done]
  | .clear => [.write 0 0x01, .write 0 0x80, .done]
  | .render => (List.range 64).map (fun k => .write 1 (renderCell s k)) ++ [.done]

/-- `micro(kind, step)` (R172); `none` where `step` is no position of the script. -/
def micro (kind : Kind) (step : BitVec 7) (s : State) : Option MicroOp := (script kind s)[step.toNat]?

/-- `start(kind, step)` on the micro-operations from `step` on: loads the first one, passing over waits of 0 (R178). -/
def startFrom (kind : Kind) : BitVec 7 → List MicroOp → State → Host.Outcome State Fault Refusal
  | step, [], _ => .fault (.offScript kind step)
  | step, .write c v :: _, s => .next { s with kind := kind, step := step, ch := c, val := v, phase := .b1 }
  | step, .extra n :: rest, s =>
    if n = 0 then startFrom kind (step + 1) rest s
    else .next { s with kind := kind, step := step, timer := BitVec.ofNat Config.timerWidth n, phase := .wait }
  | step, .done :: _, s =>
    .next ({ s with init := if kind = Kind.reset then .ready else s.init }.complete kind step)

/-- `start(kind, step)`: the block's only transfer of control (R178). -/
def start (kind : Kind) (step : BitVec 7) (s : State) : Host.Outcome State Fault Refusal :=
  startFrom kind step ((script kind s).drop step.toNat) s

/-- `start(kind, step + 1)` (R184). -/
def startNext (s : State) : Host.Outcome State Fault Refusal := start s.kind (s.step + 1) s

/-! ## The command decoder (R175 to R177) -/

/-- `accept_reset()`: for the RESET command and for the automatic run after hardware reset (R174, R176). -/
def acceptReset (s : State) : Host.Outcome State Fault Refusal :=
  start .reset 0 { s.assertCs with mstate := .run }

/-- `decode_opcode(b)` (R175); a reserved byte is discarded (R87; log 5). -/
def decodeOpcode (b : Byte) (s : State) : Host.Outcome State Fault Refusal :=
  if b = 0x01 then .next { s with op := 1, mstate := .arg }
  else if b = 0x02 then .next { s with op := 2, mstate := .arg }
  else if b = 0x03 then acceptReset s
  else if b = 0x04 then start .clear 0 { s with mstate := .run }
  else if b = 0x05 then .next { s with op := 5, mstate := .arg }
  else if b = 0x06 then .next { s with op := 6, argn := 0, mstate := .arg }
  else if b = 0x07 then start .render 0 { s with mstate := .run }
  else .next s

/-- The line buffer after one text byte of SETTEXT: the three tests of R177 before the cell write; the sum does not
wrap. -/
def textByteMemory (b : Byte) (s : State) : Memory :=
  if s.aRow.toNat ≤ 3 ∧ s.aCol.toNat ≤ 15 ∧ s.aCol.toNat + s.aIdx.toNat ≤ 15 then
    s.lb.write (cellAddr s.aRow.toNat (s.aCol.toNat + s.aIdx.toNat)) b
  else s.lb

/-- `take_operand(b)` for SETTEXT: row, column, length, then the text bytes (R177). -/
def takeSettext (b : Byte) (s : State) : Host.Outcome State Fault Refusal :=
  if s.argn = 0 then .next { s with aRow := b, argn := 1 }
  else if s.argn = 1 then .next { s with aCol := b, argn := 2 }
  else if s.argn = 2 then
    if b = 0 then .next { s with aLen := b, aIdx := 0, mstate := .op, trace := s.trace ++ [.ret] }
    else .next { s with aLen := b, aIdx := 0, argn := 3 }
  else if s.aIdx.toNat + 1 = s.aLen.toNat then
    .next { s with lb := textByteMemory b s, mstate := .op, trace := s.trace ++ [.ret] }
  else .next { s with lb := textByteMemory b s, aIdx := s.aIdx + 1 }

/-- `take_operand(b)` (R177). No rule gives a case for another `op`; no run has one there (log 10). -/
def takeOperand (b : Byte) (s : State) : Host.Outcome State Fault Refusal :=
  if s.op = 1 then start .one 0 { s with ch := 0, val := b, mstate := .run }
  else if s.op = 2 then start .one 0 { s with ch := 1, val := b, mstate := .run }
  else if s.op = 5 then
    .next { s with
      bl := backlightLevel b
      mstate := .op
      trace := s.trace ++ [.bl (backlightLevel b), .ret] }
  else if s.op = 6 then takeSettext b s
  else .fault (.noOperandCase s.op)

/-! ## The clock edge (R173, R180 to R184) -/

/-- The value the timer was loaded with, `n` of R184: the settle of the frame in progress (R182) or the extra wait at
the position (R178). Read from the position: the block stores no copy of it (log 12). -/
def loadedCount (s : State) : Option Nat :=
  match micro s.kind s.step s with
  | some (.write _ _) => some (settle s.ch s.val)
  | some (.extra n) => some n
  | some .done => none
  | none => none

/-- `run_edge()` (R180 to R184). In `M_RUN` the phase is never `P_IDLE` (R189 (a)) and no rule speaks of it there
(log 10). -/
def runEdge (txReady : Bool) (s : State) : Host.Outcome State Fault Refusal :=
  match s.phase with
  | .b1 => .next (if txReady then { s with phase := .b2, trace := s.trace ++ [.tx (syncByte s.ch)] } else s)
  | .b2 => .next (if txReady then { s with phase := .b3, trace := s.trace ++ [.tx (highByte s.val)] } else s)
  | .b3 =>
    .next (if txReady then
      { s with
        phase := .wait
        timer := BitVec.ofNat Config.timerWidth (settle s.ch s.val)
        trace := s.trace ++ [.tx (lowByte s.val)] }
    else s)
  | .wait =>
    if s.timer = 1 then
      match loadedCount s with
      | some n => startNext (s.emit [.wait n])
      | none => .fault (.offScript s.kind s.step)
    else .next { s with timer := s.timer - 1 }
  | .idle => .fault (.offScript s.kind s.step)

/-- The input pins at one rising clock edge (R34). -/
structure Pins where
  rst : Bool
  cmdValid : Bool
  cmdByte : Byte
  txReady : Bool
  deriving DecidableEq, Repr

/-- One rising edge of `clk` (R173): hardware reset wins over everything, then the position decides. -/
def clockEdge (p : Pins) (s : State) : Host.Outcome State Fault Refusal :=
  if p.rst then .next s.hardReset
  else
    match s.mstate with
    | .boot => acceptReset s
    | .op => if p.cmdValid then decodeOpcode p.cmdByte s else .next s
    | .arg => if p.cmdValid then takeOperand p.cmdByte s else .next s
    | .run => runEdge p.txReady s

/-- Clock edges one after the other, stopping at the first stop. -/
def clockEdges : List Pins → State → Host.Outcome State Fault Refusal
  | [], s => .next s
  | p :: ps, s => andThen (clockEdge p s) (clockEdges ps)

/-! ## A host and a transport at the pins (R35, R36) -/

/-- What the host and the transport do at one edge: whether the host offers its next item, whether the transport
answers. Every choice is possible at every edge (R35, R36). -/
structure Env where
  offer : Bool
  txReady : Bool
  deriving DecidableEq, Repr

/-- The pins at an edge: the host's next item when it offers, else nothing (R35). `cmd_byte` is looked at only while
`cmd_valid = 1` (R173). -/
def pinsOf (e : Env) (s : State) : Pins :=
  match s.hostIn with
  | .rst :: _ => { rst := e.offer, cmdValid := false, cmdByte := 0, txReady := e.txReady }
  | .byte b :: _ => { rst := false, cmdValid := e.offer, cmdByte := b, txReady := e.txReady }
  | [] => { rst := false, cmdValid := false, cmdByte := 0, txReady := e.txReady }

/-- The host's item is used up at this edge: a command byte when `cmd_valid` and `cmd_ready` are both 1 (R35), a
reset always (R204 (a)). A byte that is not taken stays offered and is not lost (R204 (b)). -/
def itemTaken (e : Env) (s : State) : Bool :=
  match s.hostIn with
  | .rst :: _ => e.offer
  | .byte _ :: _ => e.offer && s.cmdReady
  | [] => false

/-- One clock edge with the host's offers taken from `hostIn`. -/
def edge (e : Env) (s : State) : Host.Outcome State Fault Refusal :=
  clockEdge (pinsOf e s) { s with hostIn := if itemTaken e s then s.hostIn.tail else s.hostIn }

/-- The first `k` edges of a schedule. -/
def edges (env : Nat → Env) : Nat → State → Host.Outcome State Fault Refusal
  | 0, s => .next s
  | k + 1, s => andThen (edges env k s) (edge (env k))

/-- A fair schedule: the host offers again and again, and the transport answers again and again (R205; log 9). -/
def Fair (env : Nat → Env) : Prop :=
  (∀ n, ∃ m, n ≤ m ∧ (env m).offer = true) ∧ (∀ n, ∃ m, n ≤ m ∧ (env m).txReady = true)

end Sys2Proof.Machine
end

