-- ==== Sys2Proof/Machine/Advance.lean ====
section
/-! DEFINITION. What one step of the machine does (log 1): hardware reset when the host asserts it; the automatic RESET
after hardware reset; one whole command when all its bytes are offered; else one command byte; and in the middle of a
script one micro-operation. Each part is an operation of the cycle level or the meaning of an instruction. -/

namespace Sys2Proof.Machine

/-- The command bytes the host offers before it next asserts hardware reset, in order (R35). -/
def offered : List HostItem → List Byte
  | .byte b :: rest => b :: offered rest
  | .rst :: _ => []
  | [] => []

/-- The frame micro-operation of a channel: FRAME.I or FRAME.D (R111). -/
def frameInstr (ch : Bit) (v : Byte) : Instr := if ch = 1 then .frameD v else .frameI v

/-- Idle in `M_OP`: runs the command at the head of the offered bytes, taking its bytes (R66, R86); discards a reserved
byte (R87; log 5); takes the opcode byte of a command whose bytes are not all offered yet (R175; log 24); with nothing
offered nothing changes (R173). -/
def fetchCommand (s : State) : Host.Outcome State Fault Refusal :=
  match decode (offered s.hostIn) with
  | .instr i n => exec i { s with hostIn := s.hostIn.drop n }
  | .reserved _ => .next { s with hostIn := s.hostIn.tail }
  | .incomplete =>
    match s.hostIn with
    | .byte b :: rest => decodeOpcode b { s with hostIn := rest }
    | .rst :: _ => .next s
    | [] => .next s

/-- In `M_ARG`: takes the next operand byte if one is offered (R177), else waits (R205 (b)). -/
def fetchOperand (s : State) : Host.Outcome State Fault Refusal :=
  match s.hostIn with
  | .byte b :: rest => takeOperand b { s with hostIn := rest }
  | .rst :: _ => .next s
  | [] => .next s

/-- In `M_RUN`: completes the micro-operation in progress and starts the next one (R180 to R184). At `P_B1` the frame
has not begun, so this runs FRAME.I or FRAME.D on the latched channel and value. -/
def finishMicro (s : State) : Host.Outcome State Fault Refusal :=
  match s.phase with
  | .b1 => andThen (exec (frameInstr s.ch s.val) s) startNext
  | .b2 => startNext { s with timer := 1, trace := s.trace ++ (frameEvents s.ch s.val).drop 1 }
  | .b3 => startNext { s with timer := 1, trace := s.trace ++ (frameEvents s.ch s.val).drop 2 }
  | .wait =>
    match loadedCount s with
    | some n => startNext { s with timer := 1, trace := s.trace ++ [.wait n] }
    | none => .fault (.offScript s.kind s.step)
  | .idle => .fault (.offScript s.kind s.step)

/-- The position decides what the step does (R173). -/
def advancePosition (s : State) : Host.Outcome State Fault Refusal :=
  match s.mstate with
  | .boot => exec .reset s
  | .op => fetchCommand s
  | .arg => fetchOperand s
  | .run => finishMicro s

/-- One step: hardware reset wins over everything (R204 (a), R230; log 14). -/
def advance (s : State) : Host.Outcome State Fault Refusal :=
  match s.hostIn with
  | .rst :: rest => .next { s with hostIn := rest }.hardReset
  | .byte _ :: _ => advancePosition s
  | [] => advancePosition s

/-- A command placed where the next step takes it: the block idle, its bytes the next the host offers. -/
def placeCommand (bytes : List Byte) (s : State) : State :=
  { s with mstate := .op, phase := .idle, hostIn := bytes.map .byte ++ s.hostIn }

/-- A frame micro-operation placed where the next step runs it: the sequencer at step 0 of `K_ONE`, offering the first
byte of the latched frame. The host offers nothing, so that no reset comes first. -/
def placeFrame (ch : Bit) (v : Byte) (s : State) : State :=
  { s with mstate := .run, kind := .one, step := 0, phase := .b1, ch := ch, val := v, hostIn := [] }

/-- The table word placed for the next step, in the space its row is of (log 2, log 3). -/
def placeWord (s : State) (nbits w : Nat) : State :=
  match decodeTableWord nbits w with
  | some (.frameI v) => placeFrame 0 v s
  | some (.frameD v) => placeFrame 1 v s
  | _ => placeCommand (tableBytes nbits w) s

end Sys2Proof.Machine
end

