-- ==== Sys2Proof/Machine/Step.lean ====
section
/-! DEFINITION. The step of the machine, and how an instruction is placed before it. -/

namespace Sys2Proof.Machine

/-- One step (Machine/Advance.lean). -/
def step (s : State) : Host.Outcome State Fault Refusal := advance s

/-- `s` with the table word placed so that the very next step runs it (log 2). -/
def State.withFetchWord (s : State) (nbits w : Nat) : State := placeWord s nbits w

end Sys2Proof.Machine
end

