-- ==== Sys2Proof/Machine/Assembler.lean ====
section
/-! DEFINITION. The assembler syntax and the pseudo-instructions of 30_encoding.md section 5 (R100 to R102). It stands
beside the machine: nothing of the machine uses it. White space and the reading of numerals are the model's choice
where R100 does not say (log 23). -/

namespace Sys2Proof.Machine

/-- One line of a program: a command of R100, or a pseudo-instruction of R101. -/
inductive AsmLine where
  | command (i : Instr)
  /-- `SETTEXT row, "text"`: column 0. -/
  | settextRow (row : Byte) (text : List Byte)
  | funcset
  | dispon
  | cls
  | entry
  | home
  /-- `PUTC 'c'`. -/
  | putc (c : Byte)
  deriving DecidableEq, Repr

/-- The expansions of R101. -/
def AsmLine.expand : AsmLine → Instr
  | .command i => i
  | .settextRow row text => .settext row 0 text
  | .funcset => .sendi 0x30
  | .dispon => .sendi 0x0C
  | .cls => .sendi 0x01
  | .entry => .sendi 0x06
  | .home => .sendi 0x80
  | .putc c => .sendd c

/-- The bytes of a program. -/
def assembleLines (ls : List AsmLine) : List Byte := ls.flatMap fun l => encode l.expand

/-- A character literal is one byte, its ASCII code (R102; log 18). -/
def charByte (c : Char) : Option Byte := if c.toNat < 128 then some (BitVec.ofNat 8 c.toNat) else none

/-- The bytes of a string literal, one a character (R102). -/
def textBytes : List Char → Option (List Byte)
  | [] => some []
  | c :: cs =>
    match charByte c, textBytes cs with
    | some b, some bs => some (b :: bs)
    | _, _ => none

/-! ## Reading a line -/

/-- A word of a line. -/
inductive Token where
  /-- A mnemonic or a numeral. -/
  | word (cs : List Char)
  | comma
  /-- A character literal in single quotes. -/
  | chr (c : Char)
  /-- A string literal in double quotes. -/
  | str (cs : List Char)
  deriving DecidableEq, Repr

/-- Where the reader of a line stands. -/
inductive Reading where
  | blank
  | inWord (cs : List Char)
  | inString (cs : List Char)
  /-- After the opening quote of a character literal. -/
  | openQuote
  /-- After the character of a character literal. -/
  | closeQuote (c : Char)
  deriving DecidableEq, Repr

/-- The words of a line up to the comment sign `;` (R100). -/
def readTokens : Reading → List Char → Option (List Token)
  | .blank, [] => some []
  | .inWord w, [] => some [.word w.reverse]
  | .inString _, [] => none
  | .openQuote, [] => none
  | .closeQuote _, [] => none
  | .inString w, c :: cs =>
    if c = '"' then (readTokens .blank cs).map (.str w.reverse :: ·) else readTokens (.inString (c :: w)) cs
  | .openQuote, c :: cs => readTokens (.closeQuote c) cs
  | .closeQuote q, c :: cs => if c = '\'' then (readTokens .blank cs).map (.chr q :: ·) else none
  | .blank, c :: cs =>
    if c = ';' then some []
    else if c = ' ' ∨ c = '\t' then readTokens .blank cs
    else if c = ',' then (readTokens .blank cs).map (.comma :: ·)
    else if c = '"' then readTokens (.inString []) cs
    else if c = '\'' then readTokens .openQuote cs
    else readTokens (.inWord [c]) cs
  | .inWord w, c :: cs =>
    if c = ';' then some [.word w.reverse]
    else if c = ' ' ∨ c = '\t' then (readTokens .blank cs).map (.word w.reverse :: ·)
    else if c = ',' then (readTokens .blank cs).map (fun ts => .word w.reverse :: .comma :: ts)
    else if c = '"' then (readTokens (.inString []) cs).map (.word w.reverse :: ·)
    else if c = '\'' then (readTokens .openQuote cs).map (.word w.reverse :: ·)
    else readTokens (.inWord (c :: w)) cs

/-- The value of a digit in a base. -/
def digitValue (base : Nat) (c : Char) : Option Nat :=
  let d :=
    if '0' ≤ c ∧ c ≤ '9' then c.toNat - '0'.toNat
    else if 'A' ≤ c ∧ c ≤ 'F' then c.toNat - 'A'.toNat + 10
    else if 'a' ≤ c ∧ c ≤ 'f' then c.toNat - 'a'.toNat + 10
    else base
  if d < base then some d else none

/-- The value of the digits, the most significant first. -/
def digitsValue (base : Nat) : Nat → List Char → Option Nat
  | acc, [] => some acc
  | acc, c :: cs =>
    match digitValue base c with
    | some d => digitsValue base (base * acc + d) cs
    | none => none

/-- A numeral, decimal or `0x` hexadecimal, 0..255 (R100). -/
def numeral (cs : List Char) : Option Byte :=
  let v :=
    match cs with
    | '0' :: 'x' :: d :: ds => digitsValue 16 0 (d :: ds)
    | d :: ds => digitsValue 10 0 (d :: ds)
    | [] => none
  match v with
  | some n => if n ≤ 255 then some (BitVec.ofNat 8 n) else none
  | none => none

/-- `imm8`: a numeral or a character literal (R100). -/
def imm8Of : Token → Option Byte
  | .word cs => numeral cs
  | .chr c => charByte c
  | .comma => none
  | .str _ => none

/-- A numeral and nothing else: the operand of SETBL (R100; bit 0 acts, R84). -/
def numeralOf : Token → Option Byte
  | .word cs => numeral cs
  | .chr _ => none
  | .comma => none
  | .str _ => none

/-- A character literal and nothing else: the operand of PUTC (R101). -/
def charOf : Token → Option Byte
  | .chr c => charByte c
  | .word _ => none
  | .comma => none
  | .str _ => none

/-- The operands of SETTEXT: `row, col, "text"` (R100), or `row, "text"` (R101). -/
def parseSettext : List Token → Option AsmLine
  | [.word row, .comma, .word col, .comma, .str text] =>
    match numeral row, numeral col, textBytes text with
    | some r, some c, some t => if t.length ≤ 255 then some (.command (.settext r c t)) else none
    | _, _, _ => none
  | [.word row, .comma, .str text] =>
    match numeral row, textBytes text with
    | some r, some t => if t.length ≤ 255 then some (.settextRow r t) else none
    | _, _ => none
  | _ => none

/-- A command or pseudo-instruction from its mnemonic and operands (R100, R101). -/
def parseTokens : List Token → Option AsmLine
  | .word m :: ops =>
    if m = "SETTEXT".toList then parseSettext ops
    else
      match ops with
      | [] =>
        if m = "RESET".toList then some (.command .reset)
        else if m = "CLEAR".toList then some (.command .clear)
        else if m = "RENDER".toList then some (.command .render)
        else if m = "FUNCSET".toList then some .funcset
        else if m = "DISPON".toList then some .dispon
        else if m = "CLS".toList then some .cls
        else if m = "ENTRY".toList then some .entry
        else if m = "HOME".toList then some .home
        else none
      | [t] =>
        if m = "SENDI".toList then (imm8Of t).map fun v => .command (.sendi v)
        else if m = "SENDD".toList then (imm8Of t).map fun v => .command (.sendd v)
        else if m = "SETBL".toList then (numeralOf t).map fun v => .command (.setbl v)
        else if m = "PUTC".toList then (charOf t).map .putc
        else none
      | _ => none
  | _ => none

/-- One line of a program (R100): `some none` for a line with no command on it. -/
def parseLine (line : String) : Option (Option AsmLine) :=
  match readTokens .blank line.toList with
  | some [] => some none
  | some (t :: ts) => (parseTokens (t :: ts)).map some
  | none => none

/-- The bytes of a program, one command a line (R100); `none` when a line is not of R100 or R101. -/
def assemble : List String → Option (List Byte)
  | [] => some []
  | l :: ls =>
    match parseLine l, assemble ls with
    | some (some a), some bs => some (encode a.expand ++ bs)
    | some none, some bs => some bs
    | _, _ => none

end Sys2Proof.Machine
end

