-- ==== Sys2Proof/Safety.lean ====
section
/-! DEFINITION. What counts as a safe run: the invariants of the machine (44_sequencer_fsm.md R189, with the line
buffer's canonical form and R24), the grammar of the wire (R62, R66, R89 to R94, R112, R113), the end of a run
(70_reset_and_hazards.md R249), and how traces are compared (00_scope.md R12, R13). -/

namespace Sys2Proof.Machine

/-! ## The invariant -/

/-- R189 (a): `phase != P_IDLE` exactly when `mstate == M_RUN`. -/
abbrev PhaseInv (s : State) : Prop := s.phase ≠ .idle ↔ s.mstate = .run

/-- R189 (b): in `P_WAIT`, `1 <= timer <= max(N_x)`. -/
abbrev TimerInv (s : State) : Prop := s.phase = .wait → 1 ≤ s.timer.toNat ∧ s.timer.toNat ≤ Config.nMax

/-- R189 (c) while a script runs: `step` is a position of it before its `END`, and offering a byte the micro-operation
there is the frame of the latches; an extra wait is only waited for. That `step` is a valid position in every other
state too is `StepInv`. -/
abbrev PositionInv (s : State) : Prop :=
  s.mstate = .run →
    (micro s.kind s.step s = some (.write s.ch s.val)) ∨
    (s.phase = .wait ∧ s.kind = .reset ∧ ∃ n ∈ [Config.nFs1, Config.nFs2, Config.nDisp, Config.nRmargin],
      micro s.kind s.step s = some (.extra n))

/-- R189 (c) in every state, running or not: `step` is a valid position of `kind`'s script. -/
abbrev StepInv (s : State) : Prop := s.step.toNat < (script s.kind s).length

/-- R189 (d): `tx_valid` and `cmd_ready` are never both 1. -/
abbrev PortsInv (s : State) : Prop := ¬(s.txValid = true ∧ s.cmdReady = true)

/-- R189 (e): `init == UNINIT` implies `M_BOOT`, or `M_RUN` with `kind == K_RESET`. -/
abbrev InitInv (s : State) : Prop := s.init = .uninit → s.mstate = .boot ∨ (s.mstate = .run ∧ s.kind = .reset)

/-- R24: once the automatic RESET has begun the line is asserted, and it stays so. -/
abbrev CsInv (s : State) : Prop := s.mstate ≠ .boot → s.csRs = Config.csActive

/-- R27, R175, R177: collecting operands, `op` is the opcode of a command that has operands, and text bytes are
counted below `a_len`. -/
abbrev ArgInv (s : State) : Prop :=
  s.mstate = .arg →
    (s.op = 1 ∨ s.op = 2 ∨ s.op = 5 ∨ s.op = 6) ∧ (s.op = 6 → s.argn = 3 → s.aIdx.toNat < s.aLen.toNat)

/-- The line buffer is in canonical form (R21, R50). -/
abbrev MemoryInv (s : State) : Prop := s.lb.wf = true

/-- The part of the invariant on which the behaviour of the machine rests: R189 (a), (b), (c) while a script runs, (e),
with the line, the latches and the line buffer. The whole of R189 is `MachineInv`. -/
structure Inv (s : State) : Prop where
  phase : PhaseInv s
  timer : TimerInv s
  position : PositionInv s
  init : InitInv s
  cs : CsInv s
  arg : ArgInv s
  memory : MemoryInv s

/-- The invariant of the machine, true after every edge: all of R189, (a) to (e), with R24, R27 and the line buffer's
canonical form. -/
structure MachineInv (s : State) : Prop where
  base : Inv s
  step : StepInv s
  ports : PortsInv s

/-! ## The grammar of the wire -/

/-- Where the transport stands between two events: outside a frame, inside one, or after the third byte with the
frame's settle still owed (R62, R89, R113). -/
inductive Wire where
  | between
  | afterSync (ch : Bit)
  | afterHigh (ch : Bit) (b2 : Byte)
  | owesSettle (ch : Bit) (v : Byte)
  deriving DecidableEq, Repr

/-- One event: only 0xF8 and 0xFA begin a frame (R94), the second and third byte have low nibble 0 (R92, R93), and
after the third byte nothing may come but a wait of at least the frame's settle (R66 (b), R112, R113). -/
def Wire.next : Wire → Event → Option Wire
  | .between, .tx b =>
    if b = Config.syncI then some (.afterSync 0) else if b = Config.syncD then some (.afterSync 1) else none
  | .between, .wait _ => some .between
  | .between, .cs _ => some .between
  | .between, .bl _ => some .between
  | .between, .ret => some .between
  | .afterSync ch, .tx b => if b &&& 0x0F = 0 then some (.afterHigh ch b) else none
  | .afterHigh ch b2, .tx b => if b &&& 0x0F = 0 then some (.owesSettle ch (frameValue b2 b)) else none
  | .owesSettle ch v, .wait n => if settle ch v ≤ n then some .between else none
  | _, _ => none

/-- Where a trace leaves the transport, if it follows the grammar. -/
def Wire.after : Wire → List Event → Option Wire
  | w, [] => some w
  | w, e :: es =>
    match w.next e with
    | some w' => w'.after es
    | none => none

/-- Where the transport stands in a state: the phase says which bytes of the frame have gone out (R180 to R182). -/
def State.wire (s : State) : Wire :=
  match s.phase with
  | .idle => .between
  | .b1 => .between
  | .b2 => .afterSync s.ch
  | .b3 => .afterHigh s.ch (highByte s.val)
  | .wait =>
    match micro s.kind s.step s with
    | some (.write _ _) => .owesSettle s.ch s.val
    | _ => .between

/-- The trace so far is made of whole frames, each followed by its settle, and the frame in progress. -/
def WireSafe (s : State) : Prop := Wire.after .between s.trace = some s.wire

/-! ## Runs and traces -/

/-- A run is over: every byte has been taken and the block is idle (R249). -/
def State.runOver (s : State) : Bool := decide (s.hostIn = []) && decide (s.mstate = .op)

/-- The architectural state of the command level, `S = (LB, init, cs_rs, bl)` (R10). -/
structure Arch where
  lb : Memory
  init : Init
  csRs : Bit
  bl : Bit
  deriving DecidableEq, Repr

/-- The architectural part of a state (R10). -/
def State.arch (s : State) : Arch := { lb := s.lb, init := s.init, csRs := s.csRs, bl := s.bl }

/-- The meaning of a list of commands: the meanings one after the other (R10). -/
def execAll : List Instr → State → Host.Outcome State Fault Refusal
  | [], s => .next s
  | i :: is, s => andThen (exec i s) (execAll is)

/-- A trace without its waits of 0: two traces are equal when these are (R12). -/
def dropZeroWaits (es : List Event) : List Event := es.filter fun e => decide (e ≠ .wait 0)

/-- An observed trace keeps what a trace promises: the same events in order, every wait at least as long (R13). DESIGN
CHOICE (log 25): the waits are compared one by one, so of two adjacent waits each must be kept, though on the pins only
their sum shows (R12); and a wait of 0 is an event like any other here, left to `dropZeroWaits` before comparing. -/
def keepsPromise : List Event → List Event → Bool
  | [], [] => true
  | .wait n :: ps, .wait m :: os => decide (n ≤ m) && keepsPromise ps os
  | p :: ps, o :: os => decide (p = o) && keepsPromise ps os
  | _, _ => false

/-- The cycles a trace waits in all (R136, R151). -/
def totalWait : List Event → Nat
  | [] => 0
  | .wait n :: es => n + totalWait es
  | _ :: es => totalWait es

/-- The bytes a trace hands to the transport, in order. -/
def txBytes : List Event → List Byte
  | [] => []
  | .tx b :: es => b :: txBytes es
  | _ :: es => txBytes es

end Sys2Proof.Machine
end

