-- ==== Sys2Proof/Certificates/Slice0/Obligations.lean ====
section
/-! DEFINITION. The statements about the model, each from the numbered rules of spec/. `holds` of every statement that
it is about every state, premises apart; the premises are the invariant of Safety.lean or a part of it. -/

open Sys2Proof Sys2Proof.Machine

/-! ## The commands -/

/-- R116: SENDI sends one instruction frame, settles, returns, and changes no architectural state. -/
def Obligations.SendiSendsInstructionFrame : Prop :=
  ∀ (v : Byte) (s : State), encode (.sendi v) = [0x01, v] ∧
    ∃ t, exec (.sendi v) s = .next t ∧
      t.trace = s.trace ++ ([.tx 0xF8, .tx (v &&& 0xF0), .tx ((v <<< 4) &&& 0xF0),
        .wait (if v = 0x01 then Config.nClear else Config.nShort), .ret] : List Event) ∧
      t.lb = s.lb ∧ t.init = s.init ∧ t.csRs = s.csRs ∧ t.bl = s.bl

/-- R117: SENDD sends one data frame with the short settle for every value, returns, and changes no architectural
state. -/
def Obligations.SenddSendsDataFrame : Prop :=
  ∀ (v : Byte) (s : State), encode (.sendd v) = [0x02, v] ∧
    ∃ t, exec (.sendd v) s = .next t ∧
      t.trace = s.trace ++ ([.tx 0xFA, .tx (v &&& 0xF0), .tx ((v <<< 4) &&& 0xF0), .wait Config.nShort, .ret] : List Event) ∧
      t.lb = s.lb ∧ t.init = s.init ∧ t.csRs = s.csRs ∧ t.bl = s.bl

/-- R130: the RESET sequence, its trace and what it writes; at its start `init` is UNINIT and the line is asserted. -/
def Obligations.ResetRunsInitialisationSequence : Prop :=
  ∀ s : State, encode .reset = [0x03] ∧
    (∃ u, acceptReset s = .next u ∧ u.init = .uninit ∧ u.csRs = Config.csActive ∧
      u.trace = s.trace ++ [.cs Config.csActive]) ∧
    ∃ t, exec .reset s = .next t ∧
      t.trace = s.trace ++ ([.cs Config.csActive,
        .tx 0xF8, .tx 0x30, .tx 0x00, .wait Config.nShort, .wait Config.nFs1,
        .tx 0xF8, .tx 0x30, .tx 0x00, .wait Config.nShort, .wait Config.nFs2,
        .tx 0xF8, .tx 0x00, .tx 0xC0, .wait Config.nShort, .wait Config.nDisp,
        .tx 0xF8, .tx 0x00, .tx 0x10, .wait Config.nClear, .wait Config.nRmargin,
        .tx 0xF8, .tx 0x00, .tx 0x60, .wait Config.nShort, .ret] : List Event) ∧
      t.init = .ready ∧ t.csRs = Config.csActive ∧ t.lb = s.lb ∧ t.bl = s.bl

/-- R160: CLEAR sends 0x01 with the long settle and 0x80 with the short one, and changes no architectural state. -/
def Obligations.ClearSendsClearThenHome : Prop :=
  ∀ s : State, encode .clear = [0x04] ∧
    ∃ t, exec .clear s = .next t ∧
      t.trace = s.trace ++ ([.tx 0xF8, .tx 0x00, .tx 0x10, .wait Config.nClear,
        .tx 0xF8, .tx 0x80, .tx 0x00, .wait Config.nShort, .ret] : List Event) ∧
      t.lb = s.lb ∧ t.init = s.init ∧ t.csRs = s.csRs ∧ t.bl = s.bl

/-- R162, R84: SETBL writes bit 0 of its operand to `bl`; its trace is `BL(on)`, `RET`, and the block is ready for the
next command. -/
def Obligations.SetblDrivesBacklightLine : Prop :=
  ∀ (imm8 : Byte) (s : State), encode (.setbl imm8) = [0x05, imm8] ∧
    ∃ t, exec (.setbl imm8) s = .next t ∧
      t.bl = (if imm8.getLsbD 0 then 1 else 0) ∧
      t.trace = s.trace ++ [.bl (if imm8.getLsbD 0 then 1 else 0), .ret] ∧
      t.lb = s.lb ∧ t.init = s.init ∧ t.csRs = s.csRs ∧ t.cmdReady = true

/-- R146: SETTEXT overwrites exactly the cells from the start column to the end of the text or of the row; its trace is
`RET`. The canonical form of the line buffer is the invariant `MemoryInv`. -/
def Obligations.SettextWritesItsCells : Prop :=
  ∀ (row col : Byte) (text : List Byte) (s : State), text.length ≤ 255 → MemoryInv s →
    encode (.settext row col text) = 0x06 :: row :: col :: BitVec.ofNat 8 text.length :: text ∧
    ∃ t, exec (.settext row col text) s = .next t ∧
      t.trace = s.trace ++ [.ret] ∧ t.init = s.init ∧ t.csRs = s.csRs ∧ t.bl = s.bl ∧
      ∀ r c, r < 4 → c < 16 → t.cell r c =
        if row.toNat ≤ 3 ∧ col.toNat ≤ 15 ∧ r = row.toNat ∧ col.toNat ≤ c then text.getD (c - col.toNat) (s.cell r c)
        else s.cell r c

/-- R57: a start out of range makes SETTEXT a silent no-op. -/
def Obligations.SettextOutOfRangeIsNoOp : Prop :=
  ∀ (row col : Byte) (text : List Byte) (s : State), 3 < row.toNat ∨ 15 < col.toNat →
    ∃ t, exec (.settext row col text) s = .next t ∧ t.trace = s.trace ++ [.ret] ∧
      t.lb = s.lb ∧ t.init = s.init ∧ t.csRs = s.csRs ∧ t.bl = s.bl

/-- R58: with the start in range, character `i` lands at column `col + i` or is dropped past column 15; nothing spills
into another row, and at most `16 - col` cells change. -/
def Obligations.SettextTruncatesAtRowEnd : Prop :=
  ∀ (row col : Byte) (text : List Byte) (s : State), MemoryInv s → row.toNat ≤ 3 → col.toNat ≤ 15 →
    ∃ t, exec (.settext row col text) s = .next t ∧ t.trace = s.trace ++ [.ret] ∧
      (∀ i (h : i < text.length), col.toNat + i ≤ 15 → t.cell row.toNat (col.toNat + i) = text[i]) ∧
      (∀ a, (∀ i, i < text.length → col.toNat + i ≤ 15 → a ≠ cellAddr row.toNat (col.toNat + i)) →
        t.lb.read a = s.lb.read a) ∧
      ((List.range 64).filter fun a => decide (t.lb.read a ≠ s.lb.read a)).length ≤ 16 - col.toNat

/-- R147 (h): the same SETTEXT twice leaves the line buffer as once. -/
def Obligations.SettextTwiceIsSettextOnce : Prop :=
  ∀ (row col : Byte) (text : List Byte) (s t u : State), MemoryInv s →
    exec (.settext row col text) s = .next t → exec (.settext row col text) t = .next u → u.lb = t.lb

/-- R148: RENDER sends the 64 cells as data frames, rows 0, 2, 1, 3 and columns 0 to 15, then returns; it changes no
architectural state. -/
def Obligations.RenderSendsTheLineBuffer : Prop :=
  ∀ s : State, encode .render = [0x07] ∧
    ∃ t, exec .render s = .next t ∧
      t.trace = s.trace ++ ([0, 2, 1, 3].flatMap fun r => (List.range 16).flatMap fun c =>
        [.tx 0xFA, .tx (s.cell r c &&& 0xF0), .tx ((s.cell r c <<< 4) &&& 0xF0), .wait Config.nShort]) ++ [.ret] ∧
      t.lb = s.lb ∧ t.init = s.init ∧ t.csRs = s.csRs ∧ t.bl = s.bl

/-- R56, R152: the `k`-th cell RENDER sends is `LB[rho[k >> 4]][k & 15]`, and it is the cell of the cycle level's
script at step `k`. -/
def Obligations.RenderOrderIsRho : Prop :=
  ∀ (s : State) (k : Nat), k < 64 →
    (renderCells s.lb)[k]? = some (s.cell ([0, 2, 1, 3].getD (k >>> 4) 0) (k &&& 15)) ∧
    micro .render (BitVec.ofNat 7 k) s = some (.write 1 (s.cell ([0, 2, 1, 3].getD (k >>> 4) 0) (k &&& 15)))

/-- R110: a frame micro-operation sends `0xF8 | (ch << 1)` and the two nibble bytes, settles, and changes no
architectural state. -/
def Obligations.WriteSendsOneFrame : Prop :=
  ∀ (ch : Bit) (v : Byte) (s : State),
    ∃ t, exec (if ch = 0 then .frameI v else .frameD v) s = .next t ∧
      t.trace = s.trace ++ ([.tx (0xF8 ||| (ch.setWidth 8 <<< 1)), .tx (v &&& 0xF0), .tx ((v <<< 4) &&& 0xF0),
        .wait (settle ch v)] : List Event) ∧
      t.lb = s.lb ∧ t.init = s.init ∧ t.csRs = s.csRs ∧ t.bl = s.bl

/-- R112: the long settle is for the instruction value 0x01 alone; every other write takes the short one. -/
def Obligations.SettleClassOfEveryWrite : Prop :=
  settle 0 0x01 = 1600 ∧ (∀ (ch : Bit) (v : Byte), ¬(ch = 0 ∧ v = 0x01) → settle ch v = 72) ∧
    Config.nShort < Config.nClear

/-- R161 (a): CLEAR has the events of SENDI 0x01 and SENDI 0x80 with the first `RET` left out. -/
def Obligations.ClearComposesTwoSendi : Prop :=
  ∀ s : State, ∃ e1 e2 t u w, exec (.sendi 0x01) s = .next t ∧ t.trace = s.trace ++ e1 ++ [.ret] ∧
    exec (.sendi 0x80) t = .next u ∧ u.trace = t.trace ++ e2 ++ [.ret] ∧
    exec .clear s = .next w ∧ w.trace = s.trace ++ e1 ++ e2 ++ [.ret] ∧ w.arch = u.arch

/-- R136: the totals of one RESET sequence. -/
def Obligations.ResetTotals : Prop :=
  ∀ s t : State, exec .reset s = .next t → ∃ es, t.trace = s.trace ++ es ∧
    (es.filter fun e => decide (e = .cs Config.csActive)).length = 1 ∧ (txBytes es).length = 15 ∧
    (es.filter fun e => match e with | .wait _ => true | _ => false).length = 9 ∧ totalWait es = 10535 ∧
    (es.filter fun e => decide (e = .ret)).length = 1

/-- R151: the totals of one RENDER. -/
def Obligations.RenderTotals : Prop :=
  ∀ s t : State, exec .render s = .next t → ∃ es, t.trace = s.trace ++ es ∧ (txBytes es).length = 192 ∧
    (es.filter fun e => decide (e = .wait 72)).length = 64 ∧ totalWait es = 4608 ∧
    (es.filter fun e => decide (e = .ret)).length = 1

/-- R200: every command completes with `RET`, from every state. -/
def Obligations.EveryCommandReturns : Prop :=
  ∀ (i : Instr) (s : State), i.isCommand = true →
    ∃ t es, exec i s = .next t ∧ t.trace = s.trace ++ es ++ [.ret] ∧ t.mstate = .op

/-! ## Frames: what a command leaves unchanged -/

/-- What a command that sends leaves unchanged: the line buffer, the backlight, the operand latches of SETTEXT and the
host's offers; all but RESET keep `init` and `cs_rs`; all but SENDI and SENDD keep `op`. The last clause, that the bare
frames (WRITE, R110) keep `mstate`, `kind`, `step` and `phase`, is the model's choice and no rule's (log 3, and log 21
for the latches): the model runs a frame row as one operation that does not move the position, while the clock edges of
R180 to R182 move `phase` to `P_WAIT` during a WRITE. -/
def Obligations.SendingCommandsFrame : Prop :=
  ∀ (i : Instr) (s t : State), (∀ row col text, i ≠ .settext row col text) → (∀ imm8, i ≠ .setbl imm8) →
    exec i s = .next t →
      (∀ a, t.lb.read a = s.lb.read a) ∧ t.lb = s.lb ∧ t.bl = s.bl ∧ t.hostIn = s.hostIn ∧ t.argn = s.argn ∧
      t.aRow = s.aRow ∧ t.aCol = s.aCol ∧ t.aLen = s.aLen ∧ t.aIdx = s.aIdx ∧
      (i ≠ .reset → t.init = s.init ∧ t.csRs = s.csRs) ∧
      ((∀ v, i ≠ .sendi v) → (∀ v, i ≠ .sendd v) → t.op = s.op) ∧
      (i.isCommand = false →
        t.mstate = s.mstate ∧ t.kind = s.kind ∧ t.step = s.step ∧ t.phase = s.phase)

/-- What SETTEXT leaves unchanged: everything but the cells it stores to, the decoder's latches and the position. The
stored addresses are those of its own store, `cellAddr row (col + i)` with the start in range. -/
def Obligations.SettextFrame : Prop :=
  ∀ (row col : Byte) (text : List Byte) (s t : State), exec (.settext row col text) s = .next t →
    (∀ a, (∀ i, startInRange row col = true → i < text.length → col.toNat + i < Config.cols →
        a ≠ cellAddr row.toNat (col.toNat + i)) → t.lb.read a = s.lb.read a) ∧
    t.init = s.init ∧ t.csRs = s.csRs ∧ t.bl = s.bl ∧ t.val = s.val ∧ t.ch = s.ch ∧ t.kind = s.kind ∧
    t.step = s.step ∧ t.phase = s.phase ∧ t.timer = s.timer ∧ t.hostIn = s.hostIn

/-- What SETBL leaves unchanged: everything but `bl`, `op` and the position. -/
def Obligations.SetblFrame : Prop :=
  ∀ (imm8 : Byte) (s t : State), exec (.setbl imm8) s = .next t →
    (∀ a, t.lb.read a = s.lb.read a) ∧ t.lb = s.lb ∧ t.init = s.init ∧ t.csRs = s.csRs ∧ t.val = s.val ∧ t.ch = s.ch ∧
    t.argn = s.argn ∧ t.aRow = s.aRow ∧ t.aCol = s.aCol ∧ t.aLen = s.aLen ∧ t.aIdx = s.aIdx ∧ t.kind = s.kind ∧
    t.step = s.step ∧ t.phase = s.phase ∧ t.timer = s.timer ∧ t.hostIn = s.hostIn

/-- R22 to R25: of all instructions only SETTEXT changes the line buffer, only SETBL the backlight, and only RESET
`init` and `cs_rs`. -/
def Obligations.WhoWritesWhat : Prop :=
  ∀ (i : Instr) (s t : State), exec i s = .next t →
    (t.lb ≠ s.lb → ∃ row col text, i = .settext row col text) ∧ (t.bl ≠ s.bl → ∃ imm8, i = .setbl imm8) ∧
    (t.init ≠ s.init ∨ t.csRs ≠ s.csRs → i = .reset)

/-! ## Encodings -/

/-- R90: every field of the 24 bits of a frame. -/
def Obligations.FrameBitFields : Prop :=
  ∀ (ch : Bit) (v : Byte), (frameWord ch v).extractLsb' 19 5 = 0b11111 ∧ (frameWord ch v).getLsbD 18 = false ∧
    (frameWord ch v).extractLsb' 17 1 = ch ∧ (frameWord ch v).getLsbD 16 = false ∧
    (frameWord ch v).extractLsb' 12 4 = v.extractLsb' 4 4 ∧ (frameWord ch v).extractLsb' 8 4 = 0 ∧
    (frameWord ch v).extractLsb' 4 4 = v.extractLsb' 0 4 ∧ (frameWord ch v).extractLsb' 0 4 = 0

/-- R96: value and channel are recovered from a frame, so frames are injective. -/
def Obligations.FrameReassembly : Prop :=
  (∀ (ch : Bit) (v : Byte), ∃ b1 b2 b3, frameBytes ch v = [b1, b2, b3] ∧ v = b2 ||| (b3 >>> 4) ∧
    ch = b1.extractLsb' 1 1) ∧
  ∀ (ch ch' : Bit) (v v' : Byte), frameBytes ch v = frameBytes ch' v' → ch = ch' ∧ v = v'

/-- R94: the frame decoder accepts three bytes exactly when they are one of the 512 frames, and says which. -/
def Obligations.FrameDecoderAcceptsOnlyFrames : Prop :=
  ∀ (b1 b2 b3 : Byte) (i : Instr), decodeFrame [b1, b2, b3] = .frame i ↔
    ∃ v, (i = .frameI v ∧ [b1, b2, b3] = [0xF8, v &&& 0xF0, (v <<< 4) &&& 0xF0]) ∨
      (i = .frameD v ∧ [b1, b2, b3] = [0xFA, v &&& 0xF0, (v <<< 4) &&& 0xF0])

/-- R80 to R86, R89: decoding the encoding of a well-formed instruction gives it back, whatever follows, and takes
exactly its bytes. -/
def Obligations.DecodeOfEncode : Prop :=
  ∀ (i : Instr) (rest : List Byte), i.wf = true →
    (i.isCommand = true → decode (encode i ++ rest) = .instr i (encode i).length) ∧
    (i.isCommand = false → decodeFrame (encode i ++ rest) = .frame i)

/-- R80 to R86: what the decoder reads as a command is the encoding of that well-formed command. -/
def Obligations.DecodedBytesAreTheEncoding : Prop :=
  ∀ (bs : List Byte) (i : Instr) (n : Nat), decode bs = .instr i n →
    i.wf = true ∧ i.isCommand = true ∧ n = (encode i).length ∧ bs.take n = encode i

/-- R87: exactly the bytes 0x00 and 0x08 to 0xFF are reserved; the block takes such a byte and discards it: no state
change, no event, `busy` stays 0. -/
def Obligations.ReservedOpcodeIsDiscarded : Prop :=
  (∀ (b : Byte) (bs : List Byte), decode (b :: bs) = .reserved b ↔ b = 0 ∨ 8 ≤ b.toNat) ∧
  ∀ (b : Byte) (rest : List HostItem) (s : State), b = 0 ∨ 8 ≤ b.toNat → s.mstate = .op →
    s.hostIn = .byte b :: rest →
      step s = .next { s with hostIn := rest } ∧ decodeOpcode b s = .next s ∧
        (State.busy { s with hostIn := rest }) = false

/-- Words of every row, written out from the spec's encodings (R82, R90, V1). -/
def Obligations.WordsDecodeToTheirInstructions : Prop :=
  decode [0x01, 0x30] = .instr (.sendi 0x30) 2 ∧ decode [0x02, 0x48] = .instr (.sendd 0x48) 2 ∧
  decode [0x03] = .instr .reset 1 ∧ decode [0x04] = .instr .clear 1 ∧ decode [0x05, 0xFE] = .instr (.setbl 0xFE) 2 ∧
  decode [0x06, 0x00, 0x00, 0x05, 0x48, 0x45, 0x4C, 0x4C, 0x4F] =
    .instr (.settext 0 0 [0x48, 0x45, 0x4C, 0x4C, 0x4F]) 9 ∧
  decode [0x07] = .instr .render 1 ∧ decodeFrame [0xF8, 0x30, 0x00] = .frame (.frameI 0x30) ∧
  decodeFrame [0xFA, 0xA0, 0x50] = .frame (.frameD 0xA5)

/-- R101: the pseudo-instructions and their expansions, as bytes. -/
def Obligations.PseudoInstructionsExpand : Prop :=
  (∀ (row : Byte) (text : List Byte), (AsmLine.settextRow row text).expand = .settext row 0 text) ∧
  encode AsmLine.funcset.expand = [0x01, 0x30] ∧ encode AsmLine.dispon.expand = [0x01, 0x0C] ∧
  encode AsmLine.cls.expand = [0x01, 0x01] ∧ encode AsmLine.entry.expand = [0x01, 0x06] ∧
  encode AsmLine.home.expand = [0x01, 0x80] ∧ ∀ c, encode (AsmLine.putc c).expand = [0x02, c]

/-! ## Reset -/

/-- R40: the state after hardware reset, and the outputs it has. -/
def Obligations.ResetStateValues : Prop :=
  (∀ a, State.reset.lb.read a = 0x20) ∧ State.reset.init = .uninit ∧ State.reset.csRs = 0 ∧ State.reset.bl = 0 ∧
  State.reset.val = 0 ∧ State.reset.ch = 0 ∧ State.reset.op = 0 ∧ State.reset.argn = 0 ∧ State.reset.aRow = 0 ∧
  State.reset.aCol = 0 ∧ State.reset.aLen = 0 ∧ State.reset.aIdx = 0 ∧ State.reset.step = 0 ∧ State.reset.timer = 0 ∧
  State.reset.mstate = .boot ∧ State.reset.kind = .reset ∧ State.reset.phase = .idle ∧
  State.reset.cmdReady = false ∧ State.reset.busy = true ∧ State.reset.isReady = false ∧
  State.reset.txValid = false ∧ State.reset.outputs.csRs = 0 ∧ State.reset.outputs.bl = 0

/-- R230: a clock edge with `rst = 1` gives every register its reset value, whatever the block is doing and whatever
else is offered, and while `rst` stays 1 nothing more changes. -/
def Obligations.HardwareResetWins : Prop :=
  ∀ s : State,
    (∀ p : Pins, p.rst = true → clockEdge p s = .next { State.reset with hostIn := s.hostIn, trace := s.trace }) ∧
    (∀ (p : Pins) (t : State), p.rst = true → clockEdge p s = .next t →
      t.busy = true ∧ t.cmdReady = false ∧ t.txValid = false ∧ clockEdge p t = .next t)

/-- R231: after hardware reset the block runs the RESET sequence by itself, exactly as if the byte 03 had been
received; the first 15 bytes on the transport are those of R231, and then commands are taken. -/
def Obligations.AutomaticResetRuns : Prop :=
  ∀ s : State, s.mstate = .boot →
    (∀ p : Pins, p.rst = false → clockEdge p s = acceptReset s ∧ acceptReset s = decodeOpcode 0x03 s) ∧
    ((∀ rest, s.hostIn ≠ .rst :: rest) → s.cmdReady = false ∧ step s = exec .reset s ∧
      ∃ t es, step s = .next t ∧ t.trace = s.trace ++ es ∧ es.head? = some (.cs Config.csActive) ∧
        es.getLast? = some .ret ∧ txBytes es =
          [0xF8, 0x30, 0x00, 0xF8, 0x30, 0x00, 0xF8, 0x00, 0xC0, 0xF8, 0x00, 0x10, 0xF8, 0x00, 0x60] ∧
        t.cmdReady = true)

/-- The reset state meets the whole invariant, and so the part of it that other statements take as a premise, and the
grammar of the wire. -/
def Obligations.ResetStateIsSafe : Prop := Inv State.reset ∧ MachineInv State.reset ∧ WireSafe State.reset

/-! ## The clock edge -/

/-- R189, all of (a) to (e): every clock edge, whatever the pins, keeps the whole invariant of the machine, and also the
part `Inv` of it that other statements take as a premise. -/
def Obligations.ClockEdgeKeepsInvariant : Prop :=
  ∀ (p : Pins) (s t : State), clockEdge p s = .next t → (Inv s → Inv t) ∧ (MachineInv s → MachineInv t)

/-- R200: from a state that meets the invariant no clock edge stops. -/
def Obligations.ClockEdgeNeverStops : Prop :=
  ∀ (p : Pins) (s : State), Inv s → ∃ t, clockEdge p s = .next t

/-- R62, R66 (b), R94, R113: no clock edge but a hardware reset breaks the grammar of the wire: every frame whole, only
the two sync bytes, low nibbles 0, and the settle before anything else. -/
def Obligations.ClockEdgeKeepsWireGrammar : Prop :=
  ∀ (p : Pins) (s t : State), p.rst = false → Inv s → WireSafe s → clockEdge p s = .next t → WireSafe t

/-- R173, R204 (c): `tx_ready` is looked at only in `M_RUN`, the command pins only when `cmd_ready` is 1, and nothing
but `rst` in `M_BOOT`; with no byte offered an idle or collecting block does not change. -/
def Obligations.PinsCountOnlyWhereRuled : Prop :=
  ∀ (p q : Pins) (s : State), p.rst = false → q.rst = false →
    ((s.cmdReady = true → p.cmdValid = q.cmdValid ∧ p.cmdByte = q.cmdByte) →
      (s.mstate = .run → p.txReady = q.txReady) → clockEdge p s = clockEdge q s) ∧
    (s.cmdReady = true → p.cmdValid = false → clockEdge p s = .next s)

/-- R36: `tx_valid = 1` exactly in `P_B1`, `P_B2`, `P_B3`; the offered byte is emitted on the first edge with
`tx_ready = 1`, and until then the block and the byte stay as they are. -/
def Obligations.TransportHandshake : Prop :=
  ∀ (p : Pins) (s : State), p.rst = false → s.mstate = .run →
    (s.txValid = true ↔ s.phase = .b1 ∨ s.phase = .b2 ∨ s.phase = .b3) ∧
    (s.txValid = true →
      (p.txReady = false → clockEdge p s = .next s) ∧
      (p.txReady = true → ∃ t, clockEdge p s = .next t ∧ t.trace = s.trace ++ [.tx s.txByte]))

/-- R35, R204 (b): an offered byte is used up at an edge exactly when `cmd_ready` is 1; else it waits and is not lost. -/
def Obligations.CommandPortHandshake : Prop :=
  ∀ (e : Env) (b : Byte) (rest : List HostItem) (s t : State), s.hostIn = .byte b :: rest → edge e s = .next t →
    t.hostIn = if e.offer = true ∧ s.cmdReady = true then rest else s.hostIn

/-- R38, R171: the status outputs and the offered byte as functions of the registers; nothing is said of `tx_byte` while
no byte is offered (U6). -/
def Obligations.OutputsFollowRegisters : Prop :=
  ∀ s : State, (s.cmdReady = true ↔ s.mstate = .op ∨ s.mstate = .arg) ∧
    (s.busy = true ↔ s.mstate = .boot ∨ s.mstate = .run) ∧ (s.isReady = true ↔ s.init = .ready) ∧
    (s.txValid = true ↔ s.phase = .b1 ∨ s.phase = .b2 ∨ s.phase = .b3) ∧
    (s.phase = .b1 → s.txByte = 0xF8 ||| (s.ch.setWidth 8 <<< 1)) ∧ (s.phase = .b2 → s.txByte = s.val &&& 0xF0) ∧
    (s.phase = .b3 → s.txByte = (s.val <<< 4) &&& 0xF0) ∧ s.outputs.csRs = s.csRs ∧ s.outputs.bl = s.bl

/-- R133: without hardware reset `init` changes only at the start of a RESET sequence, to UNINIT, and at its end, to
READY. -/
def Obligations.InitChangesOnlyByReset : Prop :=
  ∀ (p : Pins) (s t : State), p.rst = false → Inv s → clockEdge p s = .next t → t.init ≠ s.init →
    (t.init = .uninit ∧ t.mstate = .run ∧ t.kind = .reset ∧ t.step = 0) ∨
    (t.init = .ready ∧ s.mstate = .run ∧ s.kind = .reset ∧ t.mstate = .op)

/-- R24: without hardware reset the asserted line stays asserted, edge by edge and step by step. -/
def Obligations.ChipSelectIsNeverReleased : Prop :=
  (∀ (p : Pins) (s t : State), p.rst = false → Inv s → s.csRs = Config.csActive → clockEdge p s = .next t →
    t.csRs = Config.csActive) ∧
  ∀ s t : State, (∀ rest, s.hostIn ≠ .rst :: rest) → Inv s → s.csRs = Config.csActive → step s = .next t →
    t.csRs = Config.csActive

/-- R28: while a script runs the position only moves forward, one step of the same script at a time. -/
def Obligations.PositionMovesForward : Prop :=
  ∀ (p : Pins) (s t : State), p.rst = false → Inv s → s.mstate = .run → clockEdge p s = .next t →
    t.kind = s.kind ∧ (t.step = s.step ∨ (t.step.toNat = s.step.toNat + 1 ∧ s.phase = .wait ∧ s.timer = 1))

/-- R232: whenever the block takes a command byte, `init` is READY. -/
def Obligations.CommandsFindReady : Prop :=
  ∀ s : State, Inv s → s.cmdReady = true → s.init = .ready

/-- The trace only grows: no edge takes an event back, not even hardware reset (R12, R186, P5). -/
def Obligations.TraceOnlyGrows : Prop :=
  ∀ (p : Pins) (s t : State), Inv s → clockEdge p s = .next t → ∃ es, t.trace = s.trace ++ es

/-- R184: a wait loaded with `n >= 1` lasts exactly `n` clock periods, with `tx_valid = 0` in all of them, and ends
with `WAIT` of the loaded count and the next micro-operation, whatever the transport and the host do. -/
def Obligations.WaitLastsItsCount : Prop :=
  ∀ (ps : List Pins) (p : Pins) (s : State) (n : Nat), s.mstate = .run → s.phase = .wait → loadedCount s = some n →
    (∀ q ∈ ps, q.rst = false) → p.rst = false → s.timer.toNat = ps.length + 1 →
      (∀ k t, clockEdges (ps.take k) s = .next t → t.txValid = false) ∧
      clockEdges ps s = .next { s with timer := 1 } ∧
      clockEdges (ps ++ [p]) s = startNext { s with timer := 1, trace := s.trace ++ [.wait n] }

/-- R188: a frame whose bytes are answered after `d1`, `d2`, `d3` idle edges and whose settle is `n` occupies
`(d1 + 1) + (d2 + 1) + (d3 + 1) + n` clock periods: from the edge that loads it to the edge that leaves its settle. -/
def Obligations.FrameOccupiesItsPeriods : Prop :=
  ∀ (d1 d2 d3 : Nat) (c : Bool) (b : Byte) (ws : List Pins) (s : State), s.mstate = .run → s.phase = .b1 →
    micro s.kind s.step s = some (.write s.ch s.val) → (∀ q ∈ ws, q.rst = false) → ws.length = settle s.ch s.val →
      clockEdges
        (List.replicate d1 ⟨false, c, b, false⟩ ++ [⟨false, c, b, true⟩] ++
          List.replicate d2 ⟨false, c, b, false⟩ ++ [⟨false, c, b, true⟩] ++
          List.replicate d3 ⟨false, c, b, false⟩ ++ [⟨false, c, b, true⟩] ++ ws) s =
      startNext (s.write s.ch s.val)

/-- R64, R86, R177: taken byte by byte at the command port, a SETTEXT consumes all its `4 + len` bytes, has the effect
of the command-level SETTEXT, and the block is never busy meanwhile. -/
def Obligations.SettextByteByByte : Prop :=
  ∀ (row col : Byte) (text : List Byte) (r : Bool) (s : State), text.length ≤ 255 → s.mstate = .op →
    clockEdges ((encode (.settext row col text)).map fun b => ⟨false, true, b, r⟩) s =
      exec (.settext row col text) s ∧
    ∀ k t, clockEdges (((encode (.settext row col text)).map fun b => ⟨false, true, b, r⟩).take k) s = .next t →
      t.busy = false

/-! ## The step -/

/-- A step runs the decoded instruction: in `M_OP` the command at the head of the host's bytes, in `M_RUN` at the first
byte of a frame the frame micro-operation and then the next position, in `M_BOOT` the automatic RESET; and a hardware
reset the host offers comes before all of these. How much one step does is the model's choice (log 1, log 14). -/
def Obligations.StepRunsTheDecodedInstruction : Prop :=
  (∀ (s : State) (i : Instr) (rest : List HostItem), i.wf = true → i.isCommand = true → s.mstate = .op →
    s.hostIn = (encode i).map .byte ++ rest → step s = exec i { s with hostIn := rest }) ∧
  (∀ s : State, (∀ rest, s.hostIn ≠ .rst :: rest) → s.mstate = .run → s.phase = .b1 →
    step s = andThen (exec (if s.ch = 0 then .frameI s.val else .frameD s.val) s) startNext) ∧
  (∀ s : State, (∀ rest, s.hostIn ≠ .rst :: rest) → s.mstate = .boot → step s = exec .reset s) ∧
  ∀ (s : State) (rest : List HostItem), s.hostIn = .rst :: rest →
    step s = .next { State.reset with hostIn := rest, trace := s.trace }

/-- A table word placed for the next step is run by it: `withFetchWord` places what `decodeTableWord` reads. The
placing is the model's choice (log 2, log 3). -/
def Obligations.PlacedWordIsRun : Prop :=
  ∀ (s : State) (nbits w : Nat) (i : Instr), decodeTableWord nbits w = some i →
    (i.isCommand = true →
      ∃ rest, step (s.withFetchWord nbits w) = exec i { s.withFetchWord nbits w with hostIn := rest }) ∧
    (i.isCommand = false →
      step (s.withFetchWord nbits w) = andThen (exec i (s.withFetchWord nbits w)) startNext)

/-- R189, all of (a) to (e), step by step: every step keeps the whole invariant of the machine, the canonical form of the
line buffer with it, and also the part `Inv` of it that other statements take as a premise. -/
def Obligations.StepKeepsInvariant : Prop :=
  ∀ s t : State, step s = .next t → (Inv s → Inv t) ∧ (MachineInv s → MachineInv t)

/-- R200: from a state that meets the invariant no step stops. -/
def Obligations.StepNeverStops : Prop :=
  ∀ s : State, Inv s → ∃ t, step s = .next t

/-- R62, R66, R94, R113: no step but a hardware reset breaks the grammar of the wire. -/
def Obligations.StepKeepsWireGrammar : Prop :=
  ∀ s t : State, (∀ rest, s.hostIn ≠ .rst :: rest) → Inv s → WireSafe s → step s = .next t → WireSafe t

/-! ## The two levels agree -/

/-- R187 for one step: under every fair schedule of the host and the transport the reference machine, clock edge by
clock edge, comes to exactly the state the step answers, trace included. -/
def Obligations.EdgesReachEveryStep : Prop :=
  ∀ s t : State, Inv s → .rst ∉ s.hostIn → step s = .next t →
    ∀ env : Nat → Env, Fair env → ∃ k, edges env k s = .next t

/-- R187 for runs: whatever the steps of the command level reach, the reference machine reaches under every fair
schedule, with the same trace and the same registers. -/
def Obligations.EdgesReachEveryRun : Prop :=
  ∀ (n : Nat) (s t : State), Inv s → .rst ∉ s.hostIn → core.run n s = .next t →
    ∀ env : Nat → Env, Fair env → ∃ k, edges env k s = .next t

/-- R10, R66: run from an idle block, the bytes of a list of commands have the meaning of the list: the meanings of the
commands one after the other. -/
def Obligations.CommandStreamIsFold : Prop :=
  ∀ (cs : List Instr) (rest : List HostItem) (s : State), (∀ i ∈ cs, i.wf = true ∧ i.isCommand = true) →
    s.mstate = .op → s.hostIn = (cs.flatMap encode).map .byte ++ rest →
      core.run cs.length s = execAll cs { s with hostIn := rest }

/-- R188: the latency of each command in the reference machine when host and transport answer at every edge, counted
from the first byte of the command: one edge for each byte, then the periods of R188. -/
def Obligations.CommandLatencies : Prop :=
  ∀ (i : Instr) (rest : List HostItem) (s : State), i.wf = true → i.isCommand = true → s.mstate = .op →
    s.hostIn = (encode i).map .byte ++ rest → .rst ∉ rest →
      edges (fun _ => ⟨true, true⟩)
        ((encode i).length + (match i with
          | .sendi v => if v = 0x01 then 1603 else 75
          | .sendd _ => 75
          | .clear => 1678
          | .reset => 10550
          | .render => 4800
          | _ => 0)) s = exec i { s with hostIn := rest }
end

