-- ==== Sys2Proof/Laws/State.lean ====
section
/-! SUPPORT. What each shared update of the state does to each field: one lemma per field, so that no later proof
unfolds a record update. -/

namespace Sys2Proof.Machine.State

/-! ## `emit`: The trace only -/

@[simp] theorem emit_lb (s : State) (es : List Event) : (s.emit es).lb = s.lb := rfl
@[simp] theorem emit_init (s : State) (es : List Event) : (s.emit es).init = s.init := rfl
@[simp] theorem emit_csRs (s : State) (es : List Event) : (s.emit es).csRs = s.csRs := rfl
@[simp] theorem emit_bl (s : State) (es : List Event) : (s.emit es).bl = s.bl := rfl
@[simp] theorem emit_val (s : State) (es : List Event) : (s.emit es).val = s.val := rfl
@[simp] theorem emit_ch (s : State) (es : List Event) : (s.emit es).ch = s.ch := rfl
@[simp] theorem emit_op (s : State) (es : List Event) : (s.emit es).op = s.op := rfl
@[simp] theorem emit_argn (s : State) (es : List Event) : (s.emit es).argn = s.argn := rfl
@[simp] theorem emit_aRow (s : State) (es : List Event) : (s.emit es).aRow = s.aRow := rfl
@[simp] theorem emit_aCol (s : State) (es : List Event) : (s.emit es).aCol = s.aCol := rfl
@[simp] theorem emit_aLen (s : State) (es : List Event) : (s.emit es).aLen = s.aLen := rfl
@[simp] theorem emit_aIdx (s : State) (es : List Event) : (s.emit es).aIdx = s.aIdx := rfl
@[simp] theorem emit_mstate (s : State) (es : List Event) : (s.emit es).mstate = s.mstate := rfl
@[simp] theorem emit_kind (s : State) (es : List Event) : (s.emit es).kind = s.kind := rfl
@[simp] theorem emit_step (s : State) (es : List Event) : (s.emit es).step = s.step := rfl
@[simp] theorem emit_phase (s : State) (es : List Event) : (s.emit es).phase = s.phase := rfl
@[simp] theorem emit_timer (s : State) (es : List Event) : (s.emit es).timer = s.timer := rfl
@[simp] theorem emit_hostIn (s : State) (es : List Event) : (s.emit es).hostIn = s.hostIn := rfl
@[simp] theorem emit_trace (s : State) (es : List Event) : (s.emit es).trace = s.trace ++ es := rfl

/-! ## `write`: The latches, the timer and the trace -/

@[simp] theorem write_lb (c : Bit) (v : Byte) (s : State) : (s.write c v).lb = s.lb := rfl
@[simp] theorem write_init (c : Bit) (v : Byte) (s : State) : (s.write c v).init = s.init := rfl
@[simp] theorem write_csRs (c : Bit) (v : Byte) (s : State) : (s.write c v).csRs = s.csRs := rfl
@[simp] theorem write_bl (c : Bit) (v : Byte) (s : State) : (s.write c v).bl = s.bl := rfl
@[simp] theorem write_val (c : Bit) (v : Byte) (s : State) : (s.write c v).val = v := rfl
@[simp] theorem write_ch (c : Bit) (v : Byte) (s : State) : (s.write c v).ch = c := rfl
@[simp] theorem write_op (c : Bit) (v : Byte) (s : State) : (s.write c v).op = s.op := rfl
@[simp] theorem write_argn (c : Bit) (v : Byte) (s : State) : (s.write c v).argn = s.argn := rfl
@[simp] theorem write_aRow (c : Bit) (v : Byte) (s : State) : (s.write c v).aRow = s.aRow := rfl
@[simp] theorem write_aCol (c : Bit) (v : Byte) (s : State) : (s.write c v).aCol = s.aCol := rfl
@[simp] theorem write_aLen (c : Bit) (v : Byte) (s : State) : (s.write c v).aLen = s.aLen := rfl
@[simp] theorem write_aIdx (c : Bit) (v : Byte) (s : State) : (s.write c v).aIdx = s.aIdx := rfl
@[simp] theorem write_mstate (c : Bit) (v : Byte) (s : State) : (s.write c v).mstate = s.mstate := rfl
@[simp] theorem write_kind (c : Bit) (v : Byte) (s : State) : (s.write c v).kind = s.kind := rfl
@[simp] theorem write_step (c : Bit) (v : Byte) (s : State) : (s.write c v).step = s.step := rfl
@[simp] theorem write_phase (c : Bit) (v : Byte) (s : State) : (s.write c v).phase = s.phase := rfl
@[simp] theorem write_timer (c : Bit) (v : Byte) (s : State) : (s.write c v).timer = 1 := rfl
@[simp] theorem write_hostIn (c : Bit) (v : Byte) (s : State) : (s.write c v).hostIn = s.hostIn := rfl
@[simp] theorem write_trace (c : Bit) (v : Byte) (s : State) : (s.write c v).trace = s.trace ++ frameEvents c v := rfl

/-! ## `complete`: The position and the trace -/

@[simp] theorem complete_lb (k : Kind) (n : BitVec 7) (s : State) : (s.complete k n).lb = s.lb := rfl
@[simp] theorem complete_init (k : Kind) (n : BitVec 7) (s : State) : (s.complete k n).init = s.init := rfl
@[simp] theorem complete_csRs (k : Kind) (n : BitVec 7) (s : State) : (s.complete k n).csRs = s.csRs := rfl
@[simp] theorem complete_bl (k : Kind) (n : BitVec 7) (s : State) : (s.complete k n).bl = s.bl := rfl
@[simp] theorem complete_val (k : Kind) (n : BitVec 7) (s : State) : (s.complete k n).val = s.val := rfl
@[simp] theorem complete_ch (k : Kind) (n : BitVec 7) (s : State) : (s.complete k n).ch = s.ch := rfl
@[simp] theorem complete_op (k : Kind) (n : BitVec 7) (s : State) : (s.complete k n).op = s.op := rfl
@[simp] theorem complete_argn (k : Kind) (n : BitVec 7) (s : State) : (s.complete k n).argn = s.argn := rfl
@[simp] theorem complete_aRow (k : Kind) (n : BitVec 7) (s : State) : (s.complete k n).aRow = s.aRow := rfl
@[simp] theorem complete_aCol (k : Kind) (n : BitVec 7) (s : State) : (s.complete k n).aCol = s.aCol := rfl
@[simp] theorem complete_aLen (k : Kind) (n : BitVec 7) (s : State) : (s.complete k n).aLen = s.aLen := rfl
@[simp] theorem complete_aIdx (k : Kind) (n : BitVec 7) (s : State) : (s.complete k n).aIdx = s.aIdx := rfl
@[simp] theorem complete_mstate (k : Kind) (n : BitVec 7) (s : State) : (s.complete k n).mstate = .op := rfl
@[simp] theorem complete_kind (k : Kind) (n : BitVec 7) (s : State) : (s.complete k n).kind = k := rfl
@[simp] theorem complete_step (k : Kind) (n : BitVec 7) (s : State) : (s.complete k n).step = n := rfl
@[simp] theorem complete_phase (k : Kind) (n : BitVec 7) (s : State) : (s.complete k n).phase = .idle := rfl
@[simp] theorem complete_timer (k : Kind) (n : BitVec 7) (s : State) : (s.complete k n).timer = s.timer := rfl
@[simp] theorem complete_hostIn (k : Kind) (n : BitVec 7) (s : State) : (s.complete k n).hostIn = s.hostIn := rfl
@[simp] theorem complete_trace (k : Kind) (n : BitVec 7) (s : State) : (s.complete k n).trace = s.trace ++ [.ret] := rfl

/-! ## `assertCs`: `init`, `cs_rs` and the trace -/

@[simp] theorem assertCs_lb (s : State) : s.assertCs.lb = s.lb := rfl
@[simp] theorem assertCs_init (s : State) : s.assertCs.init = .uninit := rfl
@[simp] theorem assertCs_csRs (s : State) : s.assertCs.csRs = Config.csActive := rfl
@[simp] theorem assertCs_bl (s : State) : s.assertCs.bl = s.bl := rfl
@[simp] theorem assertCs_val (s : State) : s.assertCs.val = s.val := rfl
@[simp] theorem assertCs_ch (s : State) : s.assertCs.ch = s.ch := rfl
@[simp] theorem assertCs_op (s : State) : s.assertCs.op = s.op := rfl
@[simp] theorem assertCs_argn (s : State) : s.assertCs.argn = s.argn := rfl
@[simp] theorem assertCs_aRow (s : State) : s.assertCs.aRow = s.aRow := rfl
@[simp] theorem assertCs_aCol (s : State) : s.assertCs.aCol = s.aCol := rfl
@[simp] theorem assertCs_aLen (s : State) : s.assertCs.aLen = s.aLen := rfl
@[simp] theorem assertCs_aIdx (s : State) : s.assertCs.aIdx = s.aIdx := rfl
@[simp] theorem assertCs_mstate (s : State) : s.assertCs.mstate = s.mstate := rfl
@[simp] theorem assertCs_kind (s : State) : s.assertCs.kind = s.kind := rfl
@[simp] theorem assertCs_step (s : State) : s.assertCs.step = s.step := rfl
@[simp] theorem assertCs_phase (s : State) : s.assertCs.phase = s.phase := rfl
@[simp] theorem assertCs_timer (s : State) : s.assertCs.timer = s.timer := rfl
@[simp] theorem assertCs_hostIn (s : State) : s.assertCs.hostIn = s.hostIn := rfl
@[simp] theorem assertCs_trace (s : State) : s.assertCs.trace = s.trace ++ [.cs Config.csActive] := rfl

/-! ## `hardReset`: Every register; the trace and the offers stay -/

@[simp] theorem hardReset_lb (s : State) : s.hardReset.lb = State.reset.lb := rfl
@[simp] theorem hardReset_init (s : State) : s.hardReset.init = State.reset.init := rfl
@[simp] theorem hardReset_csRs (s : State) : s.hardReset.csRs = State.reset.csRs := rfl
@[simp] theorem hardReset_bl (s : State) : s.hardReset.bl = State.reset.bl := rfl
@[simp] theorem hardReset_val (s : State) : s.hardReset.val = State.reset.val := rfl
@[simp] theorem hardReset_ch (s : State) : s.hardReset.ch = State.reset.ch := rfl
@[simp] theorem hardReset_op (s : State) : s.hardReset.op = State.reset.op := rfl
@[simp] theorem hardReset_argn (s : State) : s.hardReset.argn = State.reset.argn := rfl
@[simp] theorem hardReset_aRow (s : State) : s.hardReset.aRow = State.reset.aRow := rfl
@[simp] theorem hardReset_aCol (s : State) : s.hardReset.aCol = State.reset.aCol := rfl
@[simp] theorem hardReset_aLen (s : State) : s.hardReset.aLen = State.reset.aLen := rfl
@[simp] theorem hardReset_aIdx (s : State) : s.hardReset.aIdx = State.reset.aIdx := rfl
@[simp] theorem hardReset_mstate (s : State) : s.hardReset.mstate = State.reset.mstate := rfl
@[simp] theorem hardReset_kind (s : State) : s.hardReset.kind = State.reset.kind := rfl
@[simp] theorem hardReset_step (s : State) : s.hardReset.step = State.reset.step := rfl
@[simp] theorem hardReset_phase (s : State) : s.hardReset.phase = State.reset.phase := rfl
@[simp] theorem hardReset_timer (s : State) : s.hardReset.timer = State.reset.timer := rfl
@[simp] theorem hardReset_hostIn (s : State) : s.hardReset.hostIn = s.hostIn := rfl
@[simp] theorem hardReset_trace (s : State) : s.hardReset.trace = s.trace := rfl

/-! ## `settextLatches`: The decoder latches -/

@[simp] theorem settextLatches_lb (row col : Byte) (text : List Byte) (s : State) : (s.settextLatches row col text).lb = s.lb := rfl
@[simp] theorem settextLatches_init (row col : Byte) (text : List Byte) (s : State) : (s.settextLatches row col text).init = s.init := rfl
@[simp] theorem settextLatches_csRs (row col : Byte) (text : List Byte) (s : State) : (s.settextLatches row col text).csRs = s.csRs := rfl
@[simp] theorem settextLatches_bl (row col : Byte) (text : List Byte) (s : State) : (s.settextLatches row col text).bl = s.bl := rfl
@[simp] theorem settextLatches_val (row col : Byte) (text : List Byte) (s : State) : (s.settextLatches row col text).val = s.val := rfl
@[simp] theorem settextLatches_ch (row col : Byte) (text : List Byte) (s : State) : (s.settextLatches row col text).ch = s.ch := rfl
@[simp] theorem settextLatches_op (row col : Byte) (text : List Byte) (s : State) : (s.settextLatches row col text).op = 6 := rfl
@[simp] theorem settextLatches_argn (row col : Byte) (text : List Byte) (s : State) : (s.settextLatches row col text).argn = if text = [] then 2 else 3 := rfl
@[simp] theorem settextLatches_aRow (row col : Byte) (text : List Byte) (s : State) : (s.settextLatches row col text).aRow = row := rfl
@[simp] theorem settextLatches_aCol (row col : Byte) (text : List Byte) (s : State) : (s.settextLatches row col text).aCol = col := rfl
@[simp] theorem settextLatches_aLen (row col : Byte) (text : List Byte) (s : State) : (s.settextLatches row col text).aLen = BitVec.ofNat 8 text.length := rfl
@[simp] theorem settextLatches_aIdx (row col : Byte) (text : List Byte) (s : State) : (s.settextLatches row col text).aIdx = BitVec.ofNat 8 (text.length - 1) := rfl
@[simp] theorem settextLatches_mstate (row col : Byte) (text : List Byte) (s : State) : (s.settextLatches row col text).mstate = s.mstate := rfl
@[simp] theorem settextLatches_kind (row col : Byte) (text : List Byte) (s : State) : (s.settextLatches row col text).kind = s.kind := rfl
@[simp] theorem settextLatches_step (row col : Byte) (text : List Byte) (s : State) : (s.settextLatches row col text).step = s.step := rfl
@[simp] theorem settextLatches_phase (row col : Byte) (text : List Byte) (s : State) : (s.settextLatches row col text).phase = s.phase := rfl
@[simp] theorem settextLatches_timer (row col : Byte) (text : List Byte) (s : State) : (s.settextLatches row col text).timer = s.timer := rfl
@[simp] theorem settextLatches_hostIn (row col : Byte) (text : List Byte) (s : State) : (s.settextLatches row col text).hostIn = s.hostIn := rfl
@[simp] theorem settextLatches_trace (row col : Byte) (text : List Byte) (s : State) : (s.settextLatches row col text).trace = s.trace := rfl

/-! ## `extraWait`: The timer and the trace, and nothing for a wait of 0 -/

@[simp] theorem extraWait_lb (n : Nat) (s : State) : (s.extraWait n).lb = s.lb := by
  unfold extraWait; split <;> rfl
@[simp] theorem extraWait_init (n : Nat) (s : State) : (s.extraWait n).init = s.init := by
  unfold extraWait; split <;> rfl
@[simp] theorem extraWait_csRs (n : Nat) (s : State) : (s.extraWait n).csRs = s.csRs := by
  unfold extraWait; split <;> rfl
@[simp] theorem extraWait_bl (n : Nat) (s : State) : (s.extraWait n).bl = s.bl := by
  unfold extraWait; split <;> rfl
@[simp] theorem extraWait_val (n : Nat) (s : State) : (s.extraWait n).val = s.val := by
  unfold extraWait; split <;> rfl
@[simp] theorem extraWait_ch (n : Nat) (s : State) : (s.extraWait n).ch = s.ch := by
  unfold extraWait; split <;> rfl
@[simp] theorem extraWait_op (n : Nat) (s : State) : (s.extraWait n).op = s.op := by
  unfold extraWait; split <;> rfl
@[simp] theorem extraWait_argn (n : Nat) (s : State) : (s.extraWait n).argn = s.argn := by
  unfold extraWait; split <;> rfl
@[simp] theorem extraWait_aRow (n : Nat) (s : State) : (s.extraWait n).aRow = s.aRow := by
  unfold extraWait; split <;> rfl
@[simp] theorem extraWait_aCol (n : Nat) (s : State) : (s.extraWait n).aCol = s.aCol := by
  unfold extraWait; split <;> rfl
@[simp] theorem extraWait_aLen (n : Nat) (s : State) : (s.extraWait n).aLen = s.aLen := by
  unfold extraWait; split <;> rfl
@[simp] theorem extraWait_aIdx (n : Nat) (s : State) : (s.extraWait n).aIdx = s.aIdx := by
  unfold extraWait; split <;> rfl
@[simp] theorem extraWait_mstate (n : Nat) (s : State) : (s.extraWait n).mstate = s.mstate := by
  unfold extraWait; split <;> rfl
@[simp] theorem extraWait_kind (n : Nat) (s : State) : (s.extraWait n).kind = s.kind := by
  unfold extraWait; split <;> rfl
@[simp] theorem extraWait_step (n : Nat) (s : State) : (s.extraWait n).step = s.step := by
  unfold extraWait; split <;> rfl
@[simp] theorem extraWait_phase (n : Nat) (s : State) : (s.extraWait n).phase = s.phase := by
  unfold extraWait; split <;> rfl
@[simp] theorem extraWait_hostIn (n : Nat) (s : State) : (s.extraWait n).hostIn = s.hostIn := by
  unfold extraWait; split <;> rfl
@[simp] theorem extraWait_zero (s : State) : s.extraWait 0 = s := rfl

theorem extraWait_pos {n : Nat} (h : n ≠ 0) (s : State) :
    s.extraWait n = { s with timer := 1, trace := s.trace ++ [.wait n] } := if_neg h

theorem extraWait_trace {n : Nat} (h : n ≠ 0) (s : State) : (s.extraWait n).trace = s.trace ++ [.wait n] := by
  rw [extraWait_pos h]

/-- No update writes twice what one write would leave. -/
@[simp] theorem emit_nil (s : State) : s.emit [] = s := by simp [emit]

theorem emit_emit (s : State) (a b : List Event) : (s.emit a).emit b = s.emit (a ++ b) := by
  simp [emit, List.append_assoc]

end Sys2Proof.Machine.State
end

