-- ==== Sys2Proof/Laws/Sequencer.lean ====
section
/-! SUPPORT. What the sequencer can do: the shape of the scripts, what `start` and `startNext` answer, what a clock
edge answers in each position. Later proofs cite these and do not unfold the sequencer. -/

namespace Sys2Proof.Machine

@[simp] theorem andThen_next (s : State) (f : State → Host.Outcome State Fault Refusal) : andThen (.next s) f = f s := rfl

/-- A sequence of two parts answers a next state exactly when both do. -/
theorem andThen_eq_next {o : Host.Outcome State Fault Refusal} {f : State → Host.Outcome State Fault Refusal} {t : State} :
    andThen o f = .next t ↔ ∃ u, o = .next u ∧ f u = .next t := by
  cases o <;> simp [andThen]

theorem andThen_assoc (o : Host.Outcome State Fault Refusal) (f g : State → Host.Outcome State Fault Refusal) :
    andThen (andThen o f) g = andThen o fun s => andThen (f s) g := by
  cases o <;> rfl

/-! ## Scripts -/

/-- The extra waits of the RESET sequence (R132). -/
abbrev extraWaits : List Nat := [Config.nFs1, Config.nFs2, Config.nDisp, Config.nRmargin]

/-- A script is frames, and in RESET extra waits, and then its one `END`. -/
theorem script_shape (k : Kind) (s : State) : ∃ ops, script k s = ops ++ [.done] ∧ ops.length ≤ 64 ∧
    ∀ o ∈ ops, (∃ c v, o = .write c v) ∨ (k = .reset ∧ ∃ n ∈ extraWaits, o = .extra n) := by
  cases k with
  | one => exact ⟨[.write s.ch s.val], rfl, by simp, by simp⟩
  | reset =>
    exact ⟨[.write 0 0x30, .extra Config.nFs1, .write 0 0x30, .extra Config.nFs2, .write 0 0x0C,
      .extra Config.nDisp, .write 0 0x01, .extra Config.nRmargin, .write 0 0x06], rfl, by simp, by simp⟩
  | clear => exact ⟨[.write 0 0x01, .write 0 0x80], rfl, by simp, by simp⟩
  | render =>
    exact ⟨(List.range 64).map fun k => .write 1 (renderCell s k), rfl, by simp, by simp⟩

/-- A script depends on the line buffer and on the latches alone. -/
theorem script_congr (k : Kind) {s t : State} (hlb : t.lb = s.lb) (hch : t.ch = s.ch) (hval : t.val = s.val) :
    script k t = script k s := by
  cases k <;> simp [script, renderCell, State.cell, hlb, hch, hval]

theorem micro_congr (k : Kind) (n : BitVec 7) {s t : State} (hlb : t.lb = s.lb) (hch : t.ch = s.ch) (hval : t.val = s.val) :
    micro k n t = micro k n s := by
  rw [micro, micro, script_congr k hlb hch hval]

/-- A frame found in a script is still there once the latches hold it. -/
theorem micro_latched {k : Kind} {n : BitVec 7} {s t : State} {c : Bit} {v : Byte} (h : micro k n s = some (.write c v))
    (hlb : t.lb = s.lb) (hch : t.ch = c) (hval : t.val = v) : micro k n t = some (.write c v) := by
  cases k with
  | one =>
    simp only [micro, script] at h ⊢
    rcases hn : n.toNat with _ | _ | m <;> rw [hn] at h <;> simp_all
  | reset => exact h
  | clear => exact h
  | render => simpa [micro, script, renderCell, State.cell, hlb] using h

/-- After a position that is not the `END` comes another position of the script. -/
theorem position_next {k : Kind} {n : BitVec 7} {s : State} {o : MicroOp} (h : micro k n s = some o) (ho : o ≠ .done) :
    (n + 1).toNat = n.toNat + 1 ∧ n.toNat < 64 ∧ ∃ o', micro k (n + 1) s = some o' ∧
      (o' = .done ∨ (∃ c v, o' = .write c v) ∨ (k = .reset ∧ ∃ m ∈ extraWaits, o' = .extra m)) := by
  obtain ⟨ops, hs, hlen, hops⟩ := script_shape k s
  rw [micro, hs] at h
  have hn : n.toNat < ops.length := by
    by_contra hge
    rcases Nat.lt_or_ge ops.length n.toNat with hlt | hle
    · rw [List.getElem?_eq_none (by simpa using hlt)] at h
      cases h
    · have : n.toNat = ops.length := by omega
      rw [this] at h
      simp at h
      exact ho h.symm
  have h1 : (n + 1).toNat = n.toNat + 1 := by
    rw [BitVec.toNat_add]
    simp
    omega
  refine ⟨h1, by omega, ?_⟩
  rw [micro, hs, h1]
  rcases Nat.lt_or_ge (n.toNat + 1) ops.length with hlt | hge
  · refine ⟨ops[n.toNat + 1], by simp [List.getElem?_append_left hlt], ?_⟩
    exact .inr (hops _ (List.getElem_mem hlt))
  · have : n.toNat + 1 = ops.length := by omega
    exact ⟨.done, by simp [this], .inl rfl⟩

/-- A wait of the RESET sequence is not 0 and fits the timer (R7, R178). -/
theorem extraWaits_bounds : ∀ n ∈ extraWaits, n ≠ 0 ∧ n < 2 ^ Config.timerWidth ∧ n ≤ Config.nMax := by decide

/-- A settle is not 0 and fits the timer (R184). -/
theorem settle_bounds (ch : Bit) (v : Byte) :
    settle ch v ≠ 0 ∧ settle ch v < 2 ^ Config.timerWidth ∧ settle ch v ≤ Config.nMax := by
  unfold settle
  split <;> decide

/-! ## `start` -/

/-- `start` at a position of the script loads the micro-operation there. -/
theorem start_of_micro {k : Kind} {n : BitVec 7} {s : State} {o : MicroOp} (h : micro k n s = some o) :
    start k n s = startFrom k n (o :: (script k s).drop (n.toNat + 1)) s := by
  unfold micro at h
  rw [start, List.drop_eq_getElem?_toList_append, h]
  rfl

theorem start_write {k : Kind} {n : BitVec 7} {s : State} {c : Bit} {v : Byte} (h : micro k n s = some (.write c v)) :
    start k n s = .next { s with kind := k, step := n, ch := c, val := v, phase := .b1 } := by
  rw [start_of_micro h]
  rfl

theorem start_extra {k : Kind} {n : BitVec 7} {s : State} {m : Nat} (h : micro k n s = some (.extra m)) (hm : m ≠ 0) :
    start k n s =
      .next { s with kind := k, step := n, timer := BitVec.ofNat Config.timerWidth m, phase := .wait } := by
  rw [start_of_micro h]
  simp [startFrom, hm]

theorem start_done {k : Kind} {n : BitVec 7} {s : State} (h : micro k n s = some .done) :
    start k n s = .next ({ s with init := if k = Kind.reset then .ready else s.init }.complete k n) := by
  rw [start_of_micro h]
  rfl

/-- What `startNext` answers from a position that is not the `END`: the next frame, the next extra wait, or the end of
the command. -/
theorem startNext_cases {s : State} {o : MicroOp} (h : micro s.kind s.step s = some o) (ho : o ≠ .done) :
    (s.step + 1).toNat = s.step.toNat + 1 ∧
    ((∃ c v, micro s.kind (s.step + 1) s = some (.write c v) ∧
        startNext s = .next { s with step := s.step + 1, ch := c, val := v, phase := .b1 }) ∨
      (s.kind = .reset ∧ ∃ m ∈ extraWaits, micro s.kind (s.step + 1) s = some (.extra m) ∧
        startNext s =
          .next { s with step := s.step + 1, timer := BitVec.ofNat Config.timerWidth m, phase := .wait }) ∨
      (micro s.kind (s.step + 1) s = some .done ∧
        startNext s =
          .next ({ s with init := if s.kind = Kind.reset then .ready else s.init }.complete s.kind (s.step + 1)))) := by
  obtain ⟨h1, -, o', hm, ho'⟩ := position_next h ho
  refine ⟨h1, ?_⟩
  rcases ho' with rfl | ⟨c, v, rfl⟩ | ⟨hk, m, hmem, rfl⟩
  · exact .inr (.inr ⟨hm, start_done hm⟩)
  · exact .inl ⟨c, v, hm, start_write hm⟩
  · exact .inr (.inl ⟨hk, m, hmem, hm, start_extra hm (extraWaits_bounds m hmem).1⟩)

theorem micro_reset_zero (s : State) : micro .reset 0 s = some (.write 0 0x30) := rfl

theorem micro_clear_zero (s : State) : micro .clear 0 s = some (.write 0 0x01) := rfl

theorem micro_one_zero (s : State) : micro .one 0 s = some (.write s.ch s.val) := rfl

theorem micro_render_zero (s : State) : micro .render 0 s = some (.write 1 (s.cell 0 0)) := rfl

/-- What `accept_reset` answers (R176). -/
theorem acceptReset_eq (s : State) : acceptReset s = .next { s.assertCs with
    mstate := .run, kind := .reset, step := 0, ch := 0, val := 0x30, phase := .b1 } := rfl

/-! ## `run_edge`, phase by phase (R180 to R184) -/

theorem runEdge_b1 {s : State} (hp : s.phase = .b1) (r : Bool) : runEdge r s =
    .next (if r then { s with phase := .b2, trace := s.trace ++ [.tx (syncByte s.ch)] } else s) := by
  unfold runEdge
  split <;> simp_all

theorem runEdge_b2 {s : State} (hp : s.phase = .b2) (r : Bool) : runEdge r s =
    .next (if r then { s with phase := .b3, trace := s.trace ++ [.tx (highByte s.val)] } else s) := by
  unfold runEdge
  split <;> simp_all

theorem runEdge_b3 {s : State} (hp : s.phase = .b3) (r : Bool) : runEdge r s =
    .next (if r then
      { s with
        phase := .wait
        timer := BitVec.ofNat Config.timerWidth (settle s.ch s.val)
        trace := s.trace ++ [.tx (lowByte s.val)] }
    else s) := by
  unfold runEdge
  split <;> simp_all

theorem runEdge_wait_more {s : State} (hp : s.phase = .wait) (ht : s.timer ≠ 1) (r : Bool) :
    runEdge r s = .next { s with timer := s.timer - 1 } := by
  unfold runEdge
  split <;> first | exact if_neg ht | simp_all

theorem runEdge_wait_last {s : State} (hp : s.phase = .wait) (ht : s.timer = 1) {n : Nat} (hl : loadedCount s = some n)
    (r : Bool) : runEdge r s = startNext (s.emit [.wait n]) := by
  unfold runEdge
  split <;> first | (rw [if_pos ht, hl]) | simp_all

/-! ## A clock edge without hardware reset, position by position (R173) -/

theorem clockEdge_rst {p : Pins} (h : p.rst = true) (s : State) : clockEdge p s = .next s.hardReset := by
  unfold clockEdge
  rw [if_pos h]

theorem clockEdge_boot {p : Pins} (h : p.rst = false) {s : State} (hm : s.mstate = .boot) :
    clockEdge p s = acceptReset s := by
  unfold clockEdge
  rw [if_neg (by simp [h])]
  split <;> simp_all

theorem clockEdge_op {p : Pins} (h : p.rst = false) {s : State} (hm : s.mstate = .op) :
    clockEdge p s = if p.cmdValid then decodeOpcode p.cmdByte s else .next s := by
  unfold clockEdge
  rw [if_neg (by simp [h])]
  split <;> simp_all

theorem clockEdge_arg {p : Pins} (h : p.rst = false) {s : State} (hm : s.mstate = .arg) :
    clockEdge p s = if p.cmdValid then takeOperand p.cmdByte s else .next s := by
  unfold clockEdge
  rw [if_neg (by simp [h])]
  split <;> simp_all

theorem clockEdge_run {p : Pins} (h : p.rst = false) {s : State} (hm : s.mstate = .run) :
    clockEdge p s = runEdge p.txReady s := by
  unfold clockEdge
  rw [if_neg (by simp [h])]
  split <;> simp_all

/-! ## The latches of a position -/

/-- In a running state that meets the invariant the position is not the `END`. -/
theorem Inv.micro {s : State} (hi : Inv s) (hr : s.mstate = .run) : ∃ o, micro s.kind s.step s = some o ∧ o ≠ .done := by
  rcases hi.position hr with h | ⟨-, -, n, -, h⟩
  · exact ⟨_, h, by simp⟩
  · exact ⟨_, h, by simp⟩

/-- Offering a byte, the frame at the position is the frame of the latches (R189 (c)). -/
theorem Inv.latched {s : State} (hi : Inv s) (hr : s.mstate = .run) (hw : s.phase ≠ .wait) :
    Machine.micro s.kind s.step s = some (.write s.ch s.val) := by
  rcases hi.position hr with h | ⟨h, -⟩
  · exact h
  · exact absurd h hw

/-- In a wait, the count the timer was loaded with is the settle of the latches or an extra wait of RESET. -/
theorem Inv.loadedCount {s : State} (hi : Inv s) (hr : s.mstate = .run) :
    loadedCount s = some (settle s.ch s.val) ∨ ∃ n ∈ extraWaits, loadedCount s = some n := by
  rcases hi.position hr with h | ⟨-, -, n, hn, h⟩
  · exact .inl (by simp [Machine.loadedCount, h])
  · exact .inr ⟨n, hn, by simp [Machine.loadedCount, h]⟩

/-! ## More about `start` and the script -/

/-- From a position that is not the `END`, `startNext` answers a next state. -/
theorem startNext_ex {s : State} {o} (ho : micro s.kind s.step s = some o) (hne : o ≠ .done) : ∃ t, startNext s = .next t := by
  obtain ⟨-, ⟨c, v, hmic, he⟩ | ⟨hk, n, hn, hmic, he⟩ | ⟨-, he⟩⟩ := startNext_cases ho hne <;> exact ⟨_, he⟩

/-- What `startNext` keeps: the line, the script, and `init` except at the end of RESET; the position moves on by one. -/
theorem startNext_stay {s t : State} {o : MicroOp} (ho : micro s.kind s.step s = some o)
    (hne : o ≠ .done) (h : startNext s = .next t) : t.csRs = s.csRs ∧ t.kind = s.kind ∧ t.step.toNat = s.step.toNat + 1 ∧
     (t.init ≠ s.init → t.init = .ready ∧ s.kind = .reset ∧ t.mstate = .op) ∧ ∃ es, t.trace = s.trace ++ es := by
  obtain ⟨h1, ⟨c, v, hmic, he⟩ | ⟨hk, n, hn, hmic, he⟩ | ⟨-, he⟩⟩ := startNext_cases ho hne <;> rw [he] at h <;> cases h
  · exact ⟨rfl, rfl, h1, fun h => absurd rfl h, [], by simp⟩
  · exact ⟨rfl, rfl, h1, fun h => absurd rfl h, [], by simp⟩
  · refine ⟨rfl, rfl, h1, ?_, [.ret], by simp⟩
    by_cases hk : s.kind = .reset <;> simp [hk]

/-- `start` does not touch the host's offers. -/
theorem startFrom_hostIn (k ops) : ∀ n s t, startFrom k n ops s = .next t → t.hostIn = s.hostIn := by
  induction ops with
  | nil => intro n s t h; cases h
  | cons o ops ih =>
    intro n s t h
    cases o with
    | write c v => cases h; rfl
    | extra m =>
      simp only [startFrom] at h
      split at h
      · exact ih _ _ _ h
      · cases h; rfl
    | done => cases h; rfl

/-- `start` does not look at the host's offers. -/
theorem startFrom_host (k : Kind) (ops : List MicroOp) (h : List HostItem) : ∀ n s s', startFrom k n ops s = .next s' → startFrom k n ops { s with hostIn := h } = .next { s' with hostIn := h } := by
  induction ops with
  | nil => intro n s s' h; cases h
  | cons o ops ih =>
    intro n s s' h
    cases o with
    | write c v => cases h; rfl
    | extra m =>
      simp only [startFrom] at h ⊢
      split at h
      · simp only [*, if_true]; exact ih _ _ _ h
      · cases h; simp [*]
    | done => cases h; rfl

/-- A script does not depend on the host's offers. -/
theorem script_host (k : Kind) (s : State) (h : List HostItem) : script k { s with hostIn := h } = script k s := script_congr k rfl rfl rfl

/-- `start` does not look at the host's offers. -/
theorem start_host (k : Kind) (n) (s s' : State) (h : List HostItem) (he : start k n s = .next s') : start k n { s with hostIn := h } = .next { s' with hostIn := h } := by
  rw [start, script_host]; exact startFrom_host _ _ _ _ _ _ he

/-- Once its first frame is latched, the rest of a script is as it was. -/
theorem script_latched {k : Kind} {n : Nat} {s t : State} {c v rest} (h : (script k s).drop n = .write c v :: rest)
    (hlb : t.lb = s.lb) (_hch : t.ch = c) (_hval : t.val = v) : (script k t).drop (n + 1) = rest := by
  cases k with
  | one =>
    rcases n with _ | _ | n <;> simp [script] at h ⊢
    exact h.2
  | reset => 
    have := congrArg (List.drop 1) h
    rw [List.drop_drop] at this; exact this
  | clear =>
    have := congrArg (List.drop 1) h
    rw [List.drop_drop] at this; exact this
  | render =>
    have := congrArg (List.drop 1) h
    rw [List.drop_drop] at this
    simpa [script, renderCell, State.cell, hlb] using this

/-! ## Runs of clock edges -/

/-- A timer above 1 counts down by 1 (R184). -/
theorem timer_pred {s : State} {n : Nat} (hn : s.timer.toNat = n + 2) : s.timer ≠ 1 ∧ (s.timer - 1).toNat = n + 1 := by
  have hne : s.timer ≠ 1 := by
    intro h
    rw [h] at hn
    simp at hn
  refine ⟨hne, ?_⟩
  have := s.timer.isLt
  rw [BitVec.toNat_sub_of_le (by rw [BitVec.le_def]; simp; omega)]
  simp
  omega

/-- Clock edges one after the other. -/
theorem clockEdges_append (a b : List Pins) (s : State) : clockEdges (a ++ b) s = andThen (clockEdges a s) (clockEdges b) := by
  induction a generalizing s with
  | nil => rfl
  | cons p a ih => 
    simp only [List.cons_append, clockEdges]
    cases clockEdge p s with
    | next t => exact ih t
    | fault => rfl
    | refused => rfl

/-- Edges at which nothing changes. -/
theorem clockEdges_stay (d : Nat) (p : Pins) (s : State) (h : clockEdge p s = .next s) : clockEdges (List.replicate d p) s = .next s := by
  induction d with
  | zero => rfl
  | succ d ih => rw [List.replicate_succ, clockEdges, h, andThen_next, ih]

/-- A wait counts down to 1, one edge a count, whatever the pins show (R184). -/
theorem clockEdges_countdown (ps : List Pins) : ∀ (s : State), s.mstate = .run → s.phase = .wait →
    (∀ q ∈ ps, q.rst = false) → s.timer.toNat = ps.length + 1 → clockEdges ps s = .next { s with timer := 1 } := by
  induction ps with
  | nil =>
    intro s hm hp _ ht
    have : s.timer = 1 := BitVec.eq_of_toNat_eq (by simpa using ht)
    rw [← this]; rfl
  | cons p ps ih =>
    intro s hm hp hq ht
    obtain ⟨hne, hsub⟩ := timer_pred ht
    rw [clockEdges, clockEdge_run (hq p (by simp)) hm, runEdge_wait_more hp hne, andThen_next]
    exact ih { s with timer := s.timer - 1 } hm hp (fun q h => hq q (by simp [h])) hsub

/-! ## `step` is a valid position (R189 (c)) -/

/-- The length of a script does not depend on the state. -/
theorem script_length (k : Kind) (s t : State) : (script k t).length = (script k s).length := by
  cases k <;> simp [script]

/-- A valid position stays one while `kind` and `step` stay. -/
theorem stepInv_congr {s t : State} (hk : t.kind = s.kind) (hn : t.step = s.step) (h : StepInv s) : StepInv t := by
  rw [StepInv, hk, hn, script_length s.kind s t]
  exact h

/-- A position that holds a micro-operation is valid. -/
theorem stepInv_of_micro {k : Kind} {n : BitVec 7} {s t : State} {o : MicroOp} (h : micro k n s = some o)
    (hk : t.kind = k) (hn : t.step = n) : StepInv t := by
  obtain ⟨hlt, -⟩ := List.getElem?_eq_some_iff.1 h
  rw [StepInv, hk, hn, script_length k s t]
  exact hlt

/-- The first position of a script is valid. -/
theorem stepInv_first {t : State} (hn : t.step = 0) : StepInv t := by
  rw [StepInv, hn]
  cases t.kind <;> simp [script]

/-- `startNext` comes to a valid position (R178). -/
theorem startNext_stepInv {s t : State} {o : MicroOp} (ho : micro s.kind s.step s = some o) (hne : o ≠ .done)
    (h : startNext s = .next t) : StepInv t := by
  obtain ⟨-, ⟨c, v, hm, he⟩ | ⟨-, n, -, hm, he⟩ | ⟨hm, he⟩⟩ := startNext_cases ho hne <;> rw [he] at h <;> cases h <;>
    exact stepInv_of_micro hm rfl rfl

/-- The two ports are never busy together, by R189 (a). -/
theorem Inv.ports {s : State} (hi : Inv s) : PortsInv s := by
  rintro ⟨htx, hcmd⟩
  have hp : s.phase ≠ .idle := fun h => by simp [State.txValid, h] at htx
  simp [State.cmdReady, hi.phase.1 hp] at hcmd

/-- The whole invariant is its first part and a valid position. -/
theorem machineInv_iff {s : State} : MachineInv s ↔ Inv s ∧ StepInv s :=
  ⟨fun h => ⟨h.base, h.step⟩, fun h => ⟨h.1, h.2, h.1.ports⟩⟩

end Sys2Proof.Machine
end

