-- ==== Sys2Proof/Laws/Edges.lean ====
section
/-! SUPPORT. Runs of clock edges under a fair schedule: how one position leads to the next. `Leads s t` says that every
fair schedule takes `s` to `t` after some number of edges. -/

namespace Sys2Proof.Machine

/-- The schedule from edge `j` on. -/
def shift (j : Nat) (env : Nat → Env) : Nat → Env := fun n => env (j + n)

theorem Fair.shift {env : Nat → Env} (h : Fair env) (j : Nat) : Fair (shift j env) := by
  refine ⟨fun n => ?_, fun n => ?_⟩
  · obtain ⟨m, hm, ho⟩ := h.1 (j + n)
    exact ⟨m - j, by omega, by rw [Machine.shift, show j + (m - j) = m by omega]; exact ho⟩
  · obtain ⟨m, hm, ho⟩ := h.2 (j + n)
    exact ⟨m - j, by omega, by rw [Machine.shift, show j + (m - j) = m by omega]; exact ho⟩

theorem edges_add (env : Nat → Env) (j k : Nat) (s : State) :
    edges env (j + k) s = andThen (edges env j s) (edges (shift j env) k) := by
  induction k with
  | zero => cases h : edges env j s <;> rfl
  | succ k ih => rw [← Nat.add_assoc, edges, ih, andThen_assoc]; rfl

/-- Every fair schedule takes `s` to `t`. -/
def Leads (s t : State) : Prop := ∀ env, Fair env → ∃ k, edges env k s = .next t

theorem Leads.refl (s : State) : Leads s s := fun _ _ => ⟨0, rfl⟩

theorem Leads.trans {s t u : State} (h : Leads s t) (h' : Leads t u) : Leads s u := fun env hf => by
  obtain ⟨j, hj⟩ := h env hf
  obtain ⟨k, hk⟩ := h' (shift j env) (hf.shift j)
  exact ⟨j + k, by rw [edges_add, hj, andThen_next, hk]⟩

/-- One edge that does not depend on the host or the transport. -/
theorem Leads.edge {s t : State} (h : ∀ e, Machine.edge e s = .next t) : Leads s t := fun env _ =>
  ⟨1, by simp [edges, h]⟩

/-- If nothing changes until `p` happens, and `p` happens again and again, the edge at which it happens comes. -/
theorem edges_until {env : Nat → Env} (p : Env → Bool) (hp : ∀ n, ∃ m, n ≤ m ∧ p (env m) = true) {s t : State}
    (hno : ∀ e, p e = false → edge e s = .next s) (hyes : ∀ e, p e = true → edge e s = .next t) :
    ∃ k, edges env k s = .next t := by
  have first : ∃ m, p (env m) = true := by
    obtain ⟨m, -, hm⟩ := hp 0
    exact ⟨m, hm⟩
  have stays : ∀ j, (∀ i, i < j → p (env i) = false) → edges env j s = .next s := by
    intro j hj
    induction j with
    | zero => rfl
    | succ j ih => rw [edges, ih (fun i hi => hj i (by omega)), andThen_next, hno _ (hj j (by omega))]
  refine ⟨Nat.find first + 1, ?_⟩
  rw [edges, stays _ fun i hi => by simpa using Nat.find_min first hi, andThen_next, hyes _ (Nat.find_spec first)]

/-- The block waits for the host to offer. -/
theorem Leads.offer {s t : State} (hno : ∀ e, e.offer = false → Machine.edge e s = .next s)
    (hyes : ∀ e, e.offer = true → Machine.edge e s = .next t) : Leads s t := fun _ hf =>
  edges_until (·.offer) hf.1 hno hyes

/-- The block waits for the transport to answer. -/
theorem Leads.answer {s t : State} (hno : ∀ e, e.txReady = false → Machine.edge e s = .next s)
    (hyes : ∀ e, e.txReady = true → Machine.edge e s = .next t) : Leads s t := fun _ hf =>
  edges_until (·.txReady) hf.2 hno hyes

/-! ## Edges while the block is busy -/

/-- While no reset is offered, an edge is the machine's own edge, and a command byte is used up only when the block
takes it. -/
theorem edge_of_no_reset {s : State} (hr : ∀ rest, s.hostIn ≠ .rst :: rest) (e : Env) :
    (pinsOf e s).rst = false ∧ (pinsOf e s).txReady = e.txReady ∧
      (s.cmdReady = false → itemTaken e s = false) := by
  rcases h : s.hostIn with _ | ⟨_ | _, rest⟩
  · simp [pinsOf, itemTaken, h]
  · simp +contextual [pinsOf, itemTaken, h]
  · exact absurd h (hr rest)

/-- In `M_RUN` an edge is `run_edge`; the host's offers wait (R204 (b)). -/
theorem edge_run {s : State} (hr : ∀ rest, s.hostIn ≠ .rst :: rest) (hm : s.mstate = .run) (e : Env) :
    edge e s = runEdge e.txReady s := by
  obtain ⟨h1, h2, h3⟩ := edge_of_no_reset hr e
  rw [edge, h3 (by simp [State.cmdReady, hm]), ← h2]
  exact clockEdge_run h1 hm

/-- In `M_BOOT` an edge starts the automatic RESET (R174). -/
theorem edge_boot {s : State} (hr : ∀ rest, s.hostIn ≠ .rst :: rest) (hm : s.mstate = .boot) (e : Env) :
    edge e s = acceptReset s := by
  obtain ⟨h1, -, h3⟩ := edge_of_no_reset hr e
  rw [edge, h3 (by simp [State.cmdReady, hm])]
  exact clockEdge_boot h1 hm

/-- The pins while a byte is at the head of the host's offers. -/
theorem pinsOf_byte {s : State} {b : Byte} {rest : List HostItem} (hh : s.hostIn = .byte b :: rest) (e : Env) :
    pinsOf e s = { rst := false, cmdValid := e.offer, cmdByte := b, txReady := e.txReady } := by
  simp [pinsOf, hh]

/-- In `M_OP` an offered byte is decoded, else nothing changes (R173). -/
theorem edge_op {s : State} {b : Byte} {rest : List HostItem} (hh : s.hostIn = .byte b :: rest) (hm : s.mstate = .op)
    (e : Env) : edge e s = if e.offer then decodeOpcode b { s with hostIn := rest } else .next s := by
  have ht : itemTaken e s = e.offer := by simp [itemTaken, hh, State.cmdReady, hm]
  rw [edge, ht, pinsOf_byte hh, clockEdge_op rfl (by exact hm)]
  cases e.offer with
  | true => simp [hh]
  | false => rfl

/-- In `M_ARG` an offered byte is taken as an operand, else nothing changes (R173). -/
theorem edge_arg {s : State} {b : Byte} {rest : List HostItem} (hh : s.hostIn = .byte b :: rest) (hm : s.mstate = .arg)
    (e : Env) : edge e s = if e.offer then takeOperand b { s with hostIn := rest } else .next s := by
  have ht : itemTaken e s = e.offer := by simp [itemTaken, hh, State.cmdReady, hm]
  rw [edge, ht, pinsOf_byte hh, clockEdge_arg rfl (by exact hm)]
  cases e.offer with
  | true => simp [hh]
  | false => rfl

theorem leads_op {s t : State} {b : Byte} {rest : List HostItem} (hh : s.hostIn = .byte b :: rest) (hm : s.mstate = .op)
    (h : decodeOpcode b { s with hostIn := rest } = .next t) : Leads s t :=
  Leads.offer (fun e he => by simp [edge_op hh hm, he]) (fun e he => by simp [edge_op hh hm, he, h])

theorem leads_arg {s t : State} {b : Byte} {rest : List HostItem} (hh : s.hostIn = .byte b :: rest) (hm : s.mstate = .arg)
    (h : takeOperand b { s with hostIn := rest } = .next t) : Leads s t :=
  Leads.offer (fun e he => by simp [edge_arg hh hm, he]) (fun e he => by simp [edge_arg hh hm, he, h])

/-! ## Waits and frames -/

/-- A wait runs to its end: the timer counts down to 1 whatever the transport does (R184, R205). -/
theorem leads_countdown {s : State} (hr : ∀ rest, s.hostIn ≠ .rst :: rest) (hm : s.mstate = .run) (hp : s.phase = .wait)
    {n : Nat} (hn : s.timer.toNat = n + 1) : Leads s { s with timer := 1 } := by
  induction n generalizing s with
  | zero =>
    have : s.timer = 1 := by
      apply BitVec.eq_of_toNat_eq
      simpa using hn
    rw [← this]
    exact Leads.refl s
  | succ n ih =>
    have hne : s.timer ≠ 1 := by
      intro h
      rw [h] at hn
      simp at hn
    have hsub : (s.timer - 1).toNat = n + 1 := by
      have := s.timer.isLt
      rw [BitVec.toNat_sub_of_le (by rw [BitVec.le_def]; simp; omega)]
      simp
      omega
    refine Leads.trans (t := { s with timer := s.timer - 1 }) (Leads.edge fun e => ?_) ?_
    · rw [edge_run hr hm, runEdge_wait_more hp hne]
    · exact ih (s := { s with timer := s.timer - 1 }) hr hm hp hsub

/-- A wait ends with its `WAIT` event and the next micro-operation (R184). -/
theorem leads_wait {s t : State} (hr : ∀ rest, s.hostIn ≠ .rst :: rest) (hm : s.mstate = .run) (hp : s.phase = .wait)
    (ht : 1 ≤ s.timer.toNat) {n : Nat} (hl : loadedCount s = some n)
    (hnext : startNext { s with timer := 1, trace := s.trace ++ [.wait n] } = .next t) : Leads s t := by
  refine (leads_countdown hr hm hp (n := s.timer.toNat - 1) (by omega)).trans (Leads.edge fun e => ?_)
  rw [edge_run (by exact hr) (by exact hm)]
  have hl' : loadedCount { s with timer := 1 } = some n := by
    rw [← hl, loadedCount, loadedCount]
    congr 1
  rw [runEdge_wait_last (by exact hp) rfl hl']
  exact hnext

/-- The third byte of a frame, then the settle. -/
theorem leads_frame_b3 {s t : State} (hr : ∀ rest, s.hostIn ≠ .rst :: rest) (hm : s.mstate = .run) (hp : s.phase = .b3)
    (hl : micro s.kind s.step s = some (.write s.ch s.val))
    (hnext : startNext { s with
      phase := .wait, timer := 1, trace := s.trace ++ (frameEvents s.ch s.val).drop 2 } = .next t) : Leads s t := by
  obtain ⟨h0, hlt, -⟩ := settle_bounds s.ch s.val
  refine Leads.trans (t := { s with
    phase := .wait
    timer := BitVec.ofNat Config.timerWidth (settle s.ch s.val)
    trace := s.trace ++ [.tx (lowByte s.val)] }) (Leads.answer (fun e he => ?_) (fun e he => ?_)) ?_
  · simp [edge_run hr hm, runEdge_b3 hp, he]
  · simp [edge_run hr hm, runEdge_b3 hp, he]
  · refine leads_wait (n := settle s.ch s.val) (by exact hr) (by exact hm) rfl ?_ ?_ ?_
    · simp only [BitVec.toNat_ofNat, Nat.mod_eq_of_lt hlt]
      omega
    · rw [loadedCount]
      have : micro s.kind s.step { s with
          phase := .wait
          timer := BitVec.ofNat Config.timerWidth (settle s.ch s.val)
          trace := s.trace ++ [.tx (lowByte s.val)] } = some (.write s.ch s.val) := micro_latched hl rfl rfl rfl
      simp [this]
    · simpa [frameEvents, frameBytes] using hnext

/-- The second and third bytes of a frame, then the settle. -/
theorem leads_frame_b2 {s t : State} (hr : ∀ rest, s.hostIn ≠ .rst :: rest) (hm : s.mstate = .run) (hp : s.phase = .b2)
    (hl : micro s.kind s.step s = some (.write s.ch s.val))
    (hnext : startNext { s with
      phase := .wait, timer := 1, trace := s.trace ++ (frameEvents s.ch s.val).drop 1 } = .next t) : Leads s t := by
  refine Leads.trans (t := { s with phase := .b3, trace := s.trace ++ [.tx (highByte s.val)] })
    (Leads.answer (fun e he => ?_) (fun e he => ?_)) ?_
  · simp [edge_run hr hm, runEdge_b2 hp, he]
  · simp [edge_run hr hm, runEdge_b2 hp, he]
  · refine leads_frame_b3 (by exact hr) (by exact hm) rfl (micro_latched hl rfl rfl rfl) ?_
    simpa [frameEvents, frameBytes] using hnext

/-- A whole frame with its settle (R110, R180 to R184). -/
theorem leads_frame_b1 {s t : State} (hr : ∀ rest, s.hostIn ≠ .rst :: rest) (hm : s.mstate = .run) (hp : s.phase = .b1)
    (hl : micro s.kind s.step s = some (.write s.ch s.val))
    (hnext : startNext { s with
      phase := .wait, timer := 1, trace := s.trace ++ frameEvents s.ch s.val } = .next t) : Leads s t := by
  refine Leads.trans (t := { s with phase := .b2, trace := s.trace ++ [.tx (syncByte s.ch)] })
    (Leads.answer (fun e he => ?_) (fun e he => ?_)) ?_
  · simp [edge_run hr hm, runEdge_b1 hp, he]
  · simp [edge_run hr hm, runEdge_b1 hp, he]
  · refine leads_frame_b2 (by exact hr) (by exact hm) rfl (micro_latched hl rfl rfl rfl) ?_
    simpa [frameEvents, frameBytes] using hnext

/-- `start` does not look at the phase: it loads one. -/
theorem startNext_phase {s : State} (p : Phase) : startNext { s with phase := p } = startNext s := by
  have : ∀ (k : Kind) (ops : List MicroOp) (n : BitVec 7), startFrom k n ops { s with phase := p } = startFrom k n ops s := by
    intro k ops
    induction ops with
    | nil => intro n; rfl
    | cons o ops ih =>
      intro n
      cases o with
      | write c v => rfl
      | extra m => simp only [startFrom]; split <;> [exact ih _; rfl]
      | done => rfl
  simp only [startNext, start]
  rw [script_congr s.kind (s := s) (t := { s with phase := p }) rfl rfl rfl]
  exact this _ _ _

/-! ## Scripts from start to end -/

/-- The command-level meaning of a list of micro-operations. -/
def play : List MicroOp → State → State
  | [], s => s
  | .write c v :: ops, s => play ops (s.write c v)
  | .extra n :: ops, s => play ops (s.extraWait n)
  | .done :: _, s => s

/-- The meaning of micro-operations does not depend on the position. -/
theorem play_pos : ∀ (ops : List MicroOp) (s : State) (kind step phase), (play ops { s with kind := kind, step := step, phase := phase }) = { play ops s with kind := kind, step := step, phase := phase } := by
  intro ops
  induction ops with
  | nil => intros; rfl
  | cons o ops ih =>
    intro s kind step phase
    cases o with
    | write c v => exact ih (s.write c v) _ _ _
    | extra m => 
      simp only [play]
      rw [← ih]
      congr 1
      unfold State.extraWait
      split <;> rfl
    | done => rfl

/-- The `init` write at the `END` of a script (R178). -/
def finishInit (k : Kind) (s : State) : State := { s with init := if k = Kind.reset then .ready else s.init }

/-- Every fair schedule takes `s` to `t`, and the schedule that is always ready does so in `k` edges. -/
def Counts (k : Nat) (s t : State) : Prop := Leads s t ∧ edges (fun _ => ⟨true, true⟩) k s = .next t

/-- A constant schedule stays constant. -/
theorem shift_const (j : Nat) (e : Env) : shift j (fun _ => e) = fun _ => e := rfl

/-- Counted runs one after the other. -/
theorem Counts.trans {j k s t u} (h : Counts j s t) (h' : Counts k t u) : Counts (j + k) s u :=
  ⟨h.1.trans h'.1, by rw [edges_add, h.2, andThen_next, shift_const, h'.2]⟩

/-- One counted edge. -/
theorem Counts.one {s t : State} (h : Leads s t) (h' : edge ⟨true, true⟩ s = .next t) : Counts 1 s t :=
  ⟨h, by simp [edges, h']⟩

/-- A countdown, counted. -/
theorem counts_countdown {n : Nat} : ∀ {s : State}, (∀ rest, s.hostIn ≠ .rst :: rest) → s.mstate = .run → s.phase = .wait →
    s.timer.toNat = n + 1 → Counts n s { s with timer := 1 } := by
  induction n with
  | zero =>
    intro s hr hm hp hn
    have : s.timer = 1 := BitVec.eq_of_toNat_eq (by simpa using hn)
    rw [← this]; exact ⟨Leads.refl s, rfl⟩
  | succ n ih =>
    intro s hr hm hp hn
    have hne : s.timer ≠ 1 := by
      intro h
      rw [h] at hn
      simp at hn
    have hsub : (s.timer - 1).toNat = n + 1 := by
      have := s.timer.isLt
      rw [BitVec.toNat_sub_of_le (by rw [BitVec.le_def]; simp; omega)]
      simp
      omega
    have he : ∀ e, edge e s = .next { s with timer := s.timer - 1 } := fun e => by
      rw [edge_run hr hm, runEdge_wait_more hp hne]
    have := (Counts.one (Leads.edge he) (he _)).trans (ih (s := { s with timer := s.timer - 1 }) hr hm hp hsub)
    rw [Nat.add_comm]
    exact this

/-- A wait, counted (R184). -/
theorem counts_wait {s t : State} (hr : ∀ rest, s.hostIn ≠ .rst :: rest) (hm : s.mstate = .run) (hp : s.phase = .wait)
    {n : Nat} (hn0 : n ≠ 0) (ht : s.timer.toNat = n) (hl : loadedCount s = some n)
    (hnext : startNext { s with timer := 1, trace := s.trace ++ [.wait n] } = .next t) : Counts n s t := by
  obtain ⟨m, rfl⟩ : ∃ m, n = m + 1 := ⟨n - 1, by omega⟩
  refine (counts_countdown hr hm hp ht).trans ?_
  have hl' : loadedCount { s with timer := 1 } = some (m + 1) := by
    rw [← hl, loadedCount, loadedCount]
    congr 1
  have he : ∀ e, edge e { s with timer := 1 } = .next t := fun e => by
    rw [edge_run (by exact hr) (by exact hm), runEdge_wait_last (by exact hp) rfl hl']
    exact hnext
  exact Counts.one (Leads.edge he) (he _)

/-- A whole frame, counted: three bytes and the settle (R188). -/
theorem counts_b1 {s t : State} (hr : ∀ rest, s.hostIn ≠ .rst :: rest) (hm : s.mstate = .run) (hp : s.phase = .b1)
    (hl : micro s.kind s.step s = some (.write s.ch s.val))
    (hnext : startNext (s.write s.ch s.val) = .next t) : Counts (3 + settle s.ch s.val) s t := by
  obtain ⟨h0, hlt, -⟩ := settle_bounds s.ch s.val
  have c1 : Counts 1 s { s with phase := .b2, trace := s.trace ++ [.tx (syncByte s.ch)] } :=
    Counts.one (Leads.answer (fun e he => by simp [edge_run hr hm, runEdge_b1 hp, he]) (fun e he => by simp [edge_run hr hm, runEdge_b1 hp, he]))
      (by simp [edge_run hr hm, runEdge_b1 hp])
  have c2 : Counts 1 { s with phase := .b2, trace := s.trace ++ [.tx (syncByte s.ch)] }
      { s with phase := .b3, trace := s.trace ++ [.tx (syncByte s.ch)] ++ [.tx (highByte s.val)] } := by
    have he : ∀ e, edge e { s with phase := .b2, trace := s.trace ++ [.tx (syncByte s.ch)] } = _ := fun e => by
      rw [edge_run (by exact hr) (by exact hm), runEdge_b2 rfl]
    exact Counts.one (Leads.answer (fun e h => by rw [he, h]; rfl) (fun e h => by rw [he, h]; rfl)) (he _)
  have c3 : Counts 1 { s with phase := .b3, trace := s.trace ++ [.tx (syncByte s.ch)] ++ [.tx (highByte s.val)] }
      { s with phase := .wait, timer := BitVec.ofNat Config.timerWidth (settle s.ch s.val), trace := s.trace ++ [.tx (syncByte s.ch)] ++ [.tx (highByte s.val)] ++ [.tx (lowByte s.val)] } := by
    have he : ∀ e, edge e { s with phase := .b3, trace := s.trace ++ [.tx (syncByte s.ch)] ++ [.tx (highByte s.val)] } = _ := fun e => by
      rw [edge_run (by exact hr) (by exact hm), runEdge_b3 rfl]
    exact Counts.one (Leads.answer (fun e h => by rw [he, h]; rfl) (fun e h => by rw [he, h]; rfl)) (he _)
  have c4 : Counts (settle s.ch s.val) { s with phase := .wait, timer := BitVec.ofNat Config.timerWidth (settle s.ch s.val), trace := s.trace ++ [.tx (syncByte s.ch)] ++ [.tx (highByte s.val)] ++ [.tx (lowByte s.val)] } t := by
    refine counts_wait (by exact hr) (by exact hm) rfl h0 ?_ ?_ ?_
    · simp only [BitVec.toNat_ofNat, Nat.mod_eq_of_lt hlt]
    · have : micro s.kind s.step { s with phase := .wait, timer := BitVec.ofNat Config.timerWidth (settle s.ch s.val), trace := s.trace ++ [.tx (syncByte s.ch)] ++ [.tx (highByte s.val)] ++ [.tx (lowByte s.val)] } = some (.write s.ch s.val) := micro_latched hl rfl rfl rfl
      rw [loadedCount, this]
    · rw [← hnext, ← startNext_phase .wait (s := s.write _ _)]
      simp [State.write, frameEvents, frameBytes]
  have := ((c1.trans c2).trans c3).trans c4
  exact this

/-- The edges a micro-operation takes when the transport answers at once (R188). -/
def opCount : MicroOp → Nat
  | .write c v => 3 + settle c v
  | .extra n => n
  | .done => 0

/-- A script from `start` to its `END`: its meaning is that of its micro-operations, and it takes their edges (R187, R188). -/
theorem startFrom_counts {k : Kind} (ops : List MicroOp) : ∀ (n : BitVec 7) (s s1 : State),
    (script k s).drop n.toNat = ops ++ [.done] → n.toNat + ops.length < 128 → (∀ o ∈ ops, o ≠ .done) →
    (∀ m, .extra m ∈ ops → m < 2 ^ Config.timerWidth) → (∀ rest, s.hostIn ≠ .rst :: rest) → s.mstate = .run →
    startFrom k n (ops ++ [.done]) s = .next s1 →
    Counts (ops.map opCount).sum s1 ((finishInit k (play ops s)).complete k (n + BitVec.ofNat 7 ops.length)) := by
  induction ops with
  | nil =>
    intro n s s1 _ _ _ _ _ _ h
    cases h
    refine ⟨?_, ?_⟩
    · simpa [play, finishInit] using Leads.refl _
    · simp [edges, play, finishInit]
  | cons o ops ih =>
    intro n s s1 hs hlen hnd hx hr hm h
    have hn1 : (n + 1).toNat = n.toNat + 1 := by
      rw [BitVec.toNat_add]; simp at hlen ⊢; omega
    have hadd : n + BitVec.ofNat 7 (o :: ops).length = (n + 1) + BitVec.ofNat 7 ops.length := by
      rw [List.length_cons, BitVec.ofNat_add, BitVec.add_assoc, BitVec.add_comm 1]; rfl
    have hlen' : (n + 1).toNat + ops.length < 128 := by rw [hn1]; simp at hlen; omega
    have hnd' : ∀ o ∈ ops, o ≠ .done := fun o ho => hnd o (by simp [ho])
    have hx' : ∀ m, .extra m ∈ ops → m < 2 ^ Config.timerWidth := fun m hm => hx m (by simp [hm])
    have hmic : micro k n s = some o := by
      have := congrArg List.head? hs
      simpa [micro, List.head?_drop] using this
    rw [hadd, List.map_cons, List.sum_cons]
    cases o with
    | done => exact absurd rfl (hnd .done (by simp))
    | write c v =>
      cases h
      set u : State := { s with kind := k, step := n, ch := c, val := v, phase := .b1 } with hu
      have hdrop := script_latched (t := u.write c v) (show (script k s).drop n.toNat = .write c v :: (ops ++ [.done]) from hs) rfl rfl rfl
      rw [← hn1] at hdrop
      have hstart : startNext (u.write c v) = startFrom k (n + 1) (ops ++ [.done]) (u.write c v) := by
        show startFrom k (n+1) ((script k (u.write c v)).drop (n+1).toNat) _ = _
        rw [hdrop]
      have hex : ∃ s2, startFrom k (n + 1) (ops ++ [.done]) (u.write c v) = .next s2 := by
        rw [← hstart]
        exact startNext_ex (s := u.write c v) (o := .write c v) (micro_latched hmic rfl rfl rfl) (by simp)
      obtain ⟨s2, h2⟩ := hex
      have c1 := counts_b1 (s := u) (t := s2) hr hm rfl (micro_latched hmic rfl rfl rfl) (hstart.trans h2)
      have := ih (n + 1) (u.write c v) s2 hdrop hlen' hnd' hx' hr hm h2
      have e : u.write c v = { s.write c v with kind := k, step := n, phase := .b1 } := rfl
      rw [e, play_pos] at this
      exact c1.trans this
    | extra m =>
      have hdrop : ∀ t : State, t.lb = s.lb → t.ch = s.ch → t.val = s.val → (script k t).drop (n+1).toNat = ops ++ [.done] := fun t a b c => by
        rw [script_congr k a b c, hn1, ← List.drop_drop, hs]; rfl
      by_cases hm0 : m = 0
      · subst hm0
        rw [List.cons_append, startFrom, if_pos rfl] at h
        have := ih (n + 1) s s1 (hdrop s rfl rfl rfl) hlen' hnd' hx' hr hm h
        simpa [opCount, play] using this
      · rw [List.cons_append, startFrom, if_neg hm0] at h
        cases h
        set u : State := { s with kind := k, step := n, timer := BitVec.ofNat Config.timerWidth m, phase := .wait } with hu
        have hstart : startNext { u with timer := 1, trace := u.trace ++ [.wait m] } = startFrom k (n + 1) (ops ++ [.done]) { u with timer := 1, trace := u.trace ++ [.wait m] } := by
          show startFrom k (n+1) ((script k { u with timer := 1, trace := u.trace ++ [.wait m] }).drop (n+1).toNat) _ = _
          rw [hdrop]
          all_goals rfl
        have hmu : ∀ t : State, t.lb = s.lb → t.ch = s.ch → t.val = s.val → micro k n t = some (.extra m) := fun t a b c => by
          rw [micro_congr k n a b c, hmic]
        obtain ⟨s2, h2⟩ := startNext_ex (s := { u with timer := 1, trace := u.trace ++ [.wait m] }) (o := .extra m) (hmu _ rfl rfl rfl) (by simp)
        have c1 : Counts m u s2 := counts_wait (s := u) hr hm rfl hm0 (by
            show (BitVec.ofNat Config.timerWidth m).toNat = m
            rw [BitVec.toNat_ofNat, Nat.mod_eq_of_lt (hx m (by simp))]) (by
            rw [loadedCount, show micro u.kind u.step u = _ from hmu u rfl rfl rfl]) h2
        have := ih (n + 1) { u with timer := 1, trace := u.trace ++ [.wait m] } s2 (hdrop _ rfl rfl rfl) hlen' hnd' hx' hr hm (hstart ▸ h2)
        refine c1.trans ?_
        rw [play, State.extraWait_pos hm0]
        have k2 := play_pos ops { s with timer := 1, trace := s.trace ++ [.wait m] } k n .wait
        have e : ({ u with timer := 1, trace := u.trace ++ [.wait m] } : State) = { ({ s with timer := 1, trace := s.trace ++ [.wait m] } : State) with kind := k, step := n, phase := .wait } := rfl
        rw [e, k2] at this
        exact this

end Sys2Proof.Machine
end

