-- ==== Sys2Proof/Laws/Memory.lean ====
section
/-! SUPPORT. The line buffer: a read after a write, the canonical form, and that equal reads make equal memories. -/

namespace Sys2Proof.Machine.Memory

theorem wfFrom_cons {lo a : Nat} {v : Byte} {m : Memory} :
    wfFrom lo ((a, v) :: m) = true ↔ lo ≤ a ∧ a < 64 ∧ v ≠ Config.fill ∧ wfFrom (a + 1) m = true := by
  have h64 : Config.rows * Config.cols = 64 := rfl
  simp only [wfFrom, h64, Bool.and_eq_true, decide_eq_true_eq, and_assoc]

/-- Raising the lower bound costs nothing while it stays at or below the first address. -/
theorem wfFrom_mono {m : Memory} {lo lo' : Nat} (h : wfFrom lo' m = true) (hl : lo ≤ lo') : wfFrom lo m = true := by
  cases m with
  | nil => rfl
  | cons e m =>
    obtain ⟨a, v⟩ := e
    rw [wfFrom_cons] at *
    exact ⟨hl.trans h.1, h.2⟩

/-- Below the lower bound nothing is listed. -/
theorem read_below {m : Memory} {lo a : Nat} (h : wfFrom lo m = true) (ha : a < lo) : m.read a = Config.fill := by
  induction m generalizing lo with
  | nil => rfl
  | cons e m ih =>
    obtain ⟨k, v⟩ := e
    obtain ⟨hk, -, -, hm⟩ := wfFrom_cons.1 h
    rw [read, if_neg (by omega), ih hm (by omega)]

theorem read_put_same {m : Memory} {lo : Nat} (h : wfFrom lo m = true) (a : Nat) (v : Byte) :
    read (put a v m) a = v := by
  induction m generalizing lo with
  | nil => by_cases hv : v = Config.fill <;> simp [put, read, hv]
  | cons e m ih =>
    obtain ⟨k, w⟩ := e
    obtain ⟨-, -, -, hm⟩ := wfFrom_cons.1 h
    simp only [put]
    split
    · split
      · rename_i hlt hv
        rw [read, if_neg (by omega), read_below hm (by omega), hv]
      · simp [read]
    · split
      · rename_i hak
        subst hak
        split
        · rename_i hv
          rw [read_below hm (by omega), hv]
        · simp [read]
      · rename_i hak
        rw [read, if_neg hak, ih hm]

theorem read_put_other (m : Memory) {a b : Nat} (v : Byte) (hab : b ≠ a) : read (put a v m) b = read m b := by
  induction m with
  | nil => by_cases hv : v = Config.fill <;> simp [put, read, hv, hab]
  | cons e m ih =>
    obtain ⟨k, w⟩ := e
    simp only [put]
    split
    · split
      · rfl
      · simp [read, hab]
    · split
      · rename_i hak
        subst hak
        split <;> simp [read, hab]
      · simp [read, ih]

theorem put_wfFrom {m : Memory} {lo a : Nat} (h : wfFrom lo m = true) (hlo : lo ≤ a) (ha : a < 64) (v : Byte) :
    wfFrom lo (put a v m) = true := by
  induction m generalizing lo with
  | nil =>
    by_cases hv : v = Config.fill
    · simp [put, hv, wfFrom]
    · simp only [put, if_neg hv]
      exact wfFrom_cons.2 ⟨hlo, ha, hv, rfl⟩
  | cons e m ih =>
    obtain ⟨k, w⟩ := e
    have hc := wfFrom_cons.1 h
    obtain ⟨hk, hk64, hw, hm⟩ := hc
    simp only [put]
    split
    · rename_i hlt
      split
      · exact h
      · rename_i hv
        exact wfFrom_cons.2 ⟨hlo, ha, hv, wfFrom_cons.2 ⟨by omega, hk64, hw, hm⟩⟩
    · split
      · rename_i hak
        subst hak
        split
        · exact wfFrom_mono hm (by omega)
        · rename_i hv
          exact wfFrom_cons.2 ⟨hlo, ha, hv, hm⟩
      · exact wfFrom_cons.2 ⟨hk, hk64, hw, ih hm (by omega)⟩

/-- Every write keeps the canonical form. -/
theorem write_wf {m : Memory} (h : m.wf = true) (a : Nat) (v : Byte) : (m.write a v).wf = true := by
  unfold write
  split
  · rename_i ha
    exact put_wfFrom h (Nat.zero_le _) ha v
  · exact h

theorem read_write_same {m : Memory} (h : m.wf = true) {a : Nat} (ha : a < 64) (v : Byte) : (m.write a v).read a = v := by
  unfold write
  rw [if_pos (by simpa [Config.rows, Config.cols] using ha)]
  exact read_put_same h a v

theorem read_write_other (m : Memory) {a b : Nat} (v : Byte) (hab : b ≠ a) : (m.write a v).read b = m.read b := by
  unfold write
  split
  · exact read_put_other m v hab
  · rfl

theorem ext_from {m m' : Memory} {lo : Nat} (h : wfFrom lo m = true) (h' : wfFrom lo m' = true)
    (hr : ∀ a, m.read a = m'.read a) : m = m' := by
  induction m generalizing lo m' with
  | nil =>
    cases m' with
    | nil => rfl
    | cons e m' =>
      obtain ⟨k, v⟩ := e
      have := hr k
      simp only [read, if_true] at this
      exact absurd this.symm (wfFrom_cons.1 h').2.2.1
  | cons e m ih =>
    obtain ⟨k, v⟩ := e
    obtain ⟨hk, hk64, hv, hm⟩ := wfFrom_cons.1 h
    cases m' with
    | nil =>
      have := hr k
      simp only [read, if_true] at this
      exact absurd this hv
    | cons e' m' =>
      obtain ⟨k', v'⟩ := e'
      obtain ⟨hk', hk64', hv', hm'⟩ := wfFrom_cons.1 h'
      have hkk : k = k' := by
        rcases Nat.lt_trichotomy k k' with hlt | heq | hgt
        · have := hr k
          rw [read, if_pos rfl, read, if_neg (by omega), read_below hm' (by omega)] at this
          exact absurd this hv
        · exact heq
        · have := hr k'
          rw [read, if_neg (by omega), read_below hm (by omega), read, if_pos rfl] at this
          exact absurd this.symm hv'
      subst hkk
      have hvv : v = v' := by simpa [read] using hr k
      subst hvv
      congr 1
      refine ih hm hm' fun a => ?_
      have := hr a
      by_cases hak : a = k
      · subst hak
        rw [read_below hm (by omega), read_below hm' (by omega)]
      · simpa [read, hak] using this

/-- Two memories in canonical form that read alike are the same data. -/
theorem ext_of_wf {m m' : Memory} (h : m.wf = true) (h' : m'.wf = true) (hr : ∀ a, m.read a = m'.read a) : m = m' :=
  ext_from h h' hr

/-! ## SETTEXT's store -/

theorem putText_wf (row : Nat) {m : Memory} (h : m.wf = true) (col : Nat) (text : List Byte) :
    (putText row col text m).wf = true := by
  induction text generalizing col m with
  | nil => exact h
  | cons b text ih =>
    rw [putText]
    split
    · exact ih (write_wf h _ _) _
    · exact ih h _

theorem settextMemory_wf (row col : Byte) (text : List Byte) {m : Memory} (h : m.wf = true) :
    (settextMemory row col text m).wf = true := by
  unfold settextMemory
  split
  · exact putText_wf _ h _ _
  · exact h

/-- Off the written cells the store changes nothing. -/
theorem read_putText_other (row col : Nat) (text : List Byte) (m : Memory) (a : Nat)
    (h : ∀ i, i < text.length → col + i < Config.cols → a ≠ cellAddr row (col + i)) :
    (putText row col text m).read a = m.read a := by
  induction text generalizing col m with
  | nil => rfl
  | cons b text ih =>
    rw [putText, ih]
    · split
      · exact read_write_other _ _ (by simpa using h 0 (by simp) (by simpa))
      · rfl
    · intro i hi hc
      have := h (i + 1) (by simpa using hi) (by omega)
      rwa [show col + (i + 1) = col + 1 + i by omega] at this

/-- On a written cell the store leaves its character. -/
theorem read_putText_cell {row : Nat} (hrow : row < 4) (col : Nat) (text : List Byte) {m : Memory} (hm : m.wf = true)
    (i : Nat) (hi : i < text.length) (hc : col + i < Config.cols) :
    (putText row col text m).read (cellAddr row (col + i)) = text[i] := by
  have h16 : Config.cols = 16 := rfl
  induction text generalizing col m i with
  | nil => simp at hi
  | cons b text ih =>
    rw [putText]
    cases i with
    | zero =>
      rw [if_pos (by omega), read_putText_other]
      · exact read_write_same hm (by simp only [cellAddr, h16, Nat.add_zero] at hc ⊢; omega) b
      · intro j _ _
        simp only [cellAddr]
        omega
    | succ i =>
      have := ih (col + 1) (m := if col < Config.cols then m.write (cellAddr row col) b else m)
        (by split <;> [exact write_wf hm _ _; exact hm]) i (by simpa using hi) (by omega)
      rw [show col + (i + 1) = col + 1 + i by omega, this]
      rfl

end Sys2Proof.Machine.Memory
end

