-- ==== Sys2Proof/Laws/Commands.lean ====
section
/-! SUPPORT. One lemma for each shared operation of the commands: the bytes and the events of a frame, the frames of
RENDER and of RESET, the store of SETTEXT, the level of SETBL, and how traces are counted. -/

namespace Sys2Proof.Machine

/-! ## Frames -/

/-- A channel is 0 or 1. -/
theorem channel_cases (ch : Bit) : ch = 0 ∨ ch = 1 := by revert ch; decide

/-- The multiplexer is the formula of R91 and R110: `0xF8 | (ch << 1)`. -/
theorem syncByte_eq (ch : Bit) : syncByte ch = 0xF8 ||| (ch.setWidth 8 <<< 1) := by revert ch; decide

/-- The value comes back from its two bytes (R96, R118 (e)). -/
theorem frameValue_bytes (v : Byte) : frameValue (highByte v) (lowByte v) = v := by revert v; decide

/-- The low nibble of the second byte is 0 (R92). -/
theorem highByte_low (v : Byte) : highByte v &&& 0x0F = 0 := by revert v; decide

/-- The low nibble of the third byte is 0 (R93). -/
theorem lowByte_low (v : Byte) : lowByte v &&& 0x0F = 0 := by revert v; decide

/-- The two synchronization bytes differ (R91). -/
theorem sync_ne : Config.syncD ≠ Config.syncI := by decide

theorem frameEvents_eq (ch : Bit) (v : Byte) :
    frameEvents ch v = [.tx (syncByte ch), .tx (highByte v), .tx (lowByte v), .wait (settle ch v)] := rfl

/-- A data frame: the short settle for every value (R112, R117). -/
theorem frameEvents_data (v : Byte) : frameEvents 1 v =
    [.tx 0xFA, .tx (v &&& 0xF0), .tx ((v <<< 4) &&& 0xF0), .wait Config.nShort] := rfl

/-- An instruction frame: the long settle for 0x01 alone (R112, R116). -/
theorem frameEvents_instruction (v : Byte) : frameEvents 0 v =
    [.tx 0xF8, .tx (v &&& 0xF0), .tx ((v <<< 4) &&& 0xF0), .wait (if v = 0x01 then Config.nClear else Config.nShort)] := by
  simp [frameEvents_eq, syncByte, highByte, lowByte, settle, Config.syncI, Config.clrOp]

/-- The frames of a list of values on one channel, one after the other (R115, R148). -/
def State.writeAll (c : Bit) (xs : List Byte) (s : State) : State := xs.foldl (fun t x => t.write c x) s

@[simp] theorem State.writeAll_nil (c : Bit) (s : State) : s.writeAll c [] = s := rfl

@[simp] theorem State.writeAll_cons (c : Bit) (x : Byte) (xs : List Byte) (s : State) :
    s.writeAll c (x :: xs) = (s.write c x).writeAll c xs := rfl

theorem State.writeAll_trace (c : Bit) (xs : List Byte) (s : State) :
    (s.writeAll c xs).trace = s.trace ++ xs.flatMap (frameEvents c) := by
  induction xs generalizing s with
  | nil => simp
  | cons x xs ih => simp [ih]

/-- A list of frames changes the latches, the timer and the trace, and nothing else. -/
theorem State.writeAll_frame (c : Bit) (xs : List Byte) (s : State) : s.writeAll c xs =
    { s with
      ch := (s.writeAll c xs).ch
      val := (s.writeAll c xs).val
      timer := (s.writeAll c xs).timer
      trace := (s.writeAll c xs).trace } := by
  induction xs generalizing s with
  | nil => rfl
  | cons x xs ih =>
    rw [writeAll_cons, ih]
    rfl

@[simp] theorem State.writeAll_lb (c : Bit) (xs : List Byte) (s : State) : (s.writeAll c xs).lb = s.lb := by
  rw [State.writeAll_frame]
@[simp] theorem State.writeAll_init (c : Bit) (xs : List Byte) (s : State) : (s.writeAll c xs).init = s.init := by
  rw [State.writeAll_frame]
@[simp] theorem State.writeAll_csRs (c : Bit) (xs : List Byte) (s : State) : (s.writeAll c xs).csRs = s.csRs := by
  rw [State.writeAll_frame]
@[simp] theorem State.writeAll_bl (c : Bit) (xs : List Byte) (s : State) : (s.writeAll c xs).bl = s.bl := by
  rw [State.writeAll_frame]
@[simp] theorem State.writeAll_op (c : Bit) (xs : List Byte) (s : State) : (s.writeAll c xs).op = s.op := by
  rw [State.writeAll_frame]
@[simp] theorem State.writeAll_argn (c : Bit) (xs : List Byte) (s : State) : (s.writeAll c xs).argn = s.argn := by
  rw [State.writeAll_frame]
@[simp] theorem State.writeAll_aRow (c : Bit) (xs : List Byte) (s : State) : (s.writeAll c xs).aRow = s.aRow := by
  rw [State.writeAll_frame]
@[simp] theorem State.writeAll_aCol (c : Bit) (xs : List Byte) (s : State) : (s.writeAll c xs).aCol = s.aCol := by
  rw [State.writeAll_frame]
@[simp] theorem State.writeAll_aLen (c : Bit) (xs : List Byte) (s : State) : (s.writeAll c xs).aLen = s.aLen := by
  rw [State.writeAll_frame]
@[simp] theorem State.writeAll_aIdx (c : Bit) (xs : List Byte) (s : State) : (s.writeAll c xs).aIdx = s.aIdx := by
  rw [State.writeAll_frame]
@[simp] theorem State.writeAll_mstate (c : Bit) (xs : List Byte) (s : State) : (s.writeAll c xs).mstate = s.mstate := by
  rw [State.writeAll_frame]
@[simp] theorem State.writeAll_kind (c : Bit) (xs : List Byte) (s : State) : (s.writeAll c xs).kind = s.kind := by
  rw [State.writeAll_frame]
@[simp] theorem State.writeAll_step (c : Bit) (xs : List Byte) (s : State) : (s.writeAll c xs).step = s.step := by
  rw [State.writeAll_frame]
@[simp] theorem State.writeAll_phase (c : Bit) (xs : List Byte) (s : State) : (s.writeAll c xs).phase = s.phase := by
  rw [State.writeAll_frame]
@[simp] theorem State.writeAll_hostIn (c : Bit) (xs : List Byte) (s : State) : (s.writeAll c xs).hostIn = s.hostIn := by
  rw [State.writeAll_frame]

/-- RENDER is the frames of its cells and the end of its script. -/
theorem execRender_eq (s : State) :
    execRender s = .next ((s.writeAll 1 (renderCells s.lb)).complete .render 64) := rfl

/-- RENDER reads the linear addresses 0..15, 32..47, 16..31, 48..63, in that order (R56). -/
theorem renderCells_eq_map (m : Memory) :
    renderCells m = (List.range 64).map fun k => m.read (cellAddr (rho (k >>> 4)) (k &&& 15)) := by
  have h : (rowOrder.flatMap fun r => (List.range Config.cols).map fun c => cellAddr r c) =
      (List.range 64).map fun k => cellAddr (rho (k >>> 4)) (k &&& 15) := by decide
  have := congrArg (List.map m.read) h
  simpa [renderCells, List.map_flatMap, Function.comp_def] using this

theorem renderCells_length (m : Memory) : (renderCells m).length = 64 := by
  rw [renderCells_eq_map, List.length_map, List.length_range]

/-! ## RESET -/

/-- The events of the five frames of RESET with their extra waits (R130). -/
theorem resetFrames_trace (s : State) : (resetFrames s).trace = s.trace ++ (frameEvents 0 0x30 ++ [.wait Config.nFs1] ++
    frameEvents 0 0x30 ++ [.wait Config.nFs2] ++ frameEvents 0 0x0C ++ [.wait Config.nDisp] ++ frameEvents 0 0x01 ++
    [.wait Config.nRmargin] ++ frameEvents 0 0x06) := by
  have h1 : Config.nFs1 ≠ 0 := by decide
  have h2 : Config.nFs2 ≠ 0 := by decide
  have h3 : Config.nDisp ≠ 0 := by decide
  have h4 : Config.nRmargin ≠ 0 := by decide
  simp only [resetFrames, State.write_trace, State.extraWait_trace h1, State.extraWait_trace h2, State.extraWait_trace h3,
    State.extraWait_trace h4, List.append_assoc, insFunctionSet, insDisplayOn, insClearDisplay, insEntryMode]

/-- The frames of RESET change the latches, the timer and the trace, and nothing else. -/
theorem resetFrames_frame (s : State) : resetFrames s =
    { s with ch := 0, val := 0x06, timer := 1, trace := (resetFrames s).trace } := by
  have h1 : Config.nFs1 ≠ 0 := by decide
  have h2 : Config.nFs2 ≠ 0 := by decide
  have h3 : Config.nDisp ≠ 0 := by decide
  have h4 : Config.nRmargin ≠ 0 := by decide
  simp only [resetFrames, State.extraWait_pos h1, State.extraWait_pos h2, State.extraWait_pos h3, State.extraWait_pos h4]
  rfl

@[simp] theorem resetFrames_lb (s : State) : (resetFrames s).lb = s.lb := by
  rw [resetFrames_frame]
@[simp] theorem resetFrames_init (s : State) : (resetFrames s).init = s.init := by
  rw [resetFrames_frame]
@[simp] theorem resetFrames_csRs (s : State) : (resetFrames s).csRs = s.csRs := by
  rw [resetFrames_frame]
@[simp] theorem resetFrames_bl (s : State) : (resetFrames s).bl = s.bl := by
  rw [resetFrames_frame]
@[simp] theorem resetFrames_op (s : State) : (resetFrames s).op = s.op := by
  rw [resetFrames_frame]
@[simp] theorem resetFrames_argn (s : State) : (resetFrames s).argn = s.argn := by
  rw [resetFrames_frame]
@[simp] theorem resetFrames_aRow (s : State) : (resetFrames s).aRow = s.aRow := by
  rw [resetFrames_frame]
@[simp] theorem resetFrames_aCol (s : State) : (resetFrames s).aCol = s.aCol := by
  rw [resetFrames_frame]
@[simp] theorem resetFrames_aLen (s : State) : (resetFrames s).aLen = s.aLen := by
  rw [resetFrames_frame]
@[simp] theorem resetFrames_aIdx (s : State) : (resetFrames s).aIdx = s.aIdx := by
  rw [resetFrames_frame]
@[simp] theorem resetFrames_mstate (s : State) : (resetFrames s).mstate = s.mstate := by
  rw [resetFrames_frame]
@[simp] theorem resetFrames_kind (s : State) : (resetFrames s).kind = s.kind := by
  rw [resetFrames_frame]
@[simp] theorem resetFrames_step (s : State) : (resetFrames s).step = s.step := by
  rw [resetFrames_frame]
@[simp] theorem resetFrames_phase (s : State) : (resetFrames s).phase = s.phase := by
  rw [resetFrames_frame]
@[simp] theorem resetFrames_hostIn (s : State) : (resetFrames s).hostIn = s.hostIn := by
  rw [resetFrames_frame]

/-! ## SETTEXT and SETBL -/

theorem startInRange_iff (row col : Byte) : startInRange row col = true ↔ row.toNat ≤ 3 ∧ col.toNat ≤ 15 := by
  have h4 : Config.rows = 4 := rfl
  have h16 : Config.cols = 16 := rfl
  simp only [startInRange, h4, h16, Bool.and_eq_true, decide_eq_true_eq]
  omega

theorem settextMemory_in {row col : Byte} (h : row.toNat ≤ 3 ∧ col.toNat ≤ 15) (text : List Byte) (m : Memory) :
    settextMemory row col text m = putText row.toNat col.toNat text m := if_pos ((startInRange_iff row col).2 h)

theorem settextMemory_out {row col : Byte} (h : ¬(row.toNat ≤ 3 ∧ col.toNat ≤ 15)) (text : List Byte) (m : Memory) :
    settextMemory row col text m = m := if_neg fun hr => h ((startInRange_iff row col).1 hr)

/-- The level SETBL writes is bit 0 of its operand (R84, R162). -/
theorem backlightLevel_eq (imm8 : Byte) : backlightLevel imm8 = if imm8.getLsbD 0 then 1 else 0 := by
  revert imm8
  decide

/-! ## Counting a trace -/

theorem txBytes_append (a b : List Event) : txBytes (a ++ b) = txBytes a ++ txBytes b := by
  induction a with
  | nil => rfl
  | cons e a ih => cases e <;> simp [txBytes, ih]

theorem totalWait_append (a b : List Event) : totalWait (a ++ b) = totalWait a + totalWait b := by
  induction a with
  | nil => simp [totalWait]
  | cons e a ih => cases e <;> simp [totalWait, ih, Nat.add_assoc]

/-! ## Following the wire -/

theorem Wire.after_append (w : Wire) (a b : List Event) :
    w.after (a ++ b) = match w.after a with | some w' => w'.after b | none => none := by
  induction a generalizing w with
  | nil => rfl
  | cons e a ih =>
    simp only [List.cons_append, Wire.after]
    cases w.next e with
    | none => rfl
    | some w' => exact ih w'

theorem Wire.next_sync (ch : Bit) : Wire.between.next (.tx (syncByte ch)) = some (.afterSync ch) := by
  rcases channel_cases ch with rfl | rfl <;> rfl

theorem Wire.next_high (ch : Bit) (v : Byte) :
    (Wire.afterSync ch).next (.tx (highByte v)) = some (.afterHigh ch (highByte v)) := if_pos (highByte_low v)

theorem Wire.next_low (ch : Bit) (v : Byte) :
    (Wire.afterHigh ch (highByte v)).next (.tx (lowByte v)) = some (.owesSettle ch v) := by
  rw [Wire.next, if_pos (lowByte_low v), frameValue_bytes]

theorem Wire.next_settle (ch : Bit) (v : Byte) :
    (Wire.owesSettle ch v).next (.wait (settle ch v)) = some .between := if_pos (Nat.le_refl _)

/-- A whole frame with its settle leads from between frames to between frames (R62, R113). -/
theorem Wire.after_frame (ch : Bit) (v : Byte) : Wire.between.after (frameEvents ch v) = some .between := by
  simp only [frameEvents_eq, Wire.after, Wire.next_sync, Wire.next_high, Wire.next_low, Wire.next_settle]

theorem Wire.after_frames (ch : Bit) (xs : List Byte) : Wire.between.after (xs.flatMap (frameEvents ch)) = some .between := by
  induction xs with
  | nil => rfl
  | cons x xs ih => rw [List.flatMap_cons, Wire.after_append, Wire.after_frame]; exact ih

/-- One more event on the wire. -/
theorem after_snoc {w w' w'' : Wire} {es e} (h : w.after es = some w') (h2 : w'.next e = some w'') : w.after (es ++ [e]) = some w'' := by
  rw [Wire.after_append, h]; simp [Wire.after, h2]

/-- An idle block stands between frames. -/
theorem wire_between {s : State} (h : s.phase = .idle) : s.wire = .between := by simp [State.wire, h]

end Sys2Proof.Machine
end

