-- ==== Sys2Proof/Laws/Invariant.lean ====
section
/-! SUPPORT. The invariant of the machine through each operation of the sequencer: what `startNext`, `accept_reset`,
`decode_opcode` and `take_operand` answer meets it. A theorem about a clock edge or a step is assembled from these. -/

namespace Sys2Proof.Machine

/-! ## Bytes and opcodes -/

/-- The reserved bytes are those that are no opcode (R82, R87). -/
theorem reserved_iff (b : Byte) :
    (b = 0 ∨ 8 ≤ b.toNat) ↔ b ≠ 1 ∧ b ≠ 2 ∧ b ≠ 3 ∧ b ≠ 4 ∧ b ≠ 5 ∧ b ≠ 6 ∧ b ≠ 7 := by
  revert b
  decide

/-- A byte is one of the seven opcodes or reserved (R82). -/
theorem opcode_cases (b : Byte) :
    b = 1 ∨ b = 2 ∨ b = 3 ∨ b = 4 ∨ b = 5 ∨ b = 6 ∨ b = 7 ∨ (b = 0 ∨ 8 ≤ b.toNat) := by
  rw [reserved_iff]
  tauto

theorem decode_reserved {b : Byte} (h : b = 0 ∨ 8 ≤ b.toNat) (bs : List Byte) : decode (b :: bs) = .reserved b := by
  obtain ⟨h1, h2, h3, h4, h5, h6, h7⟩ := (reserved_iff b).1 h
  simp only [decode, if_neg h1, if_neg h2, if_neg h3, if_neg h4, if_neg h5, if_neg h6]
  exact if_neg h7

theorem decodeOpcode_reserved {b : Byte} (h : b = 0 ∨ 8 ≤ b.toNat) (s : State) : decodeOpcode b s = .next s := by
  obtain ⟨h1, h2, h3, h4, h5, h6, h7⟩ := (reserved_iff b).1 h
  simp only [decodeOpcode, if_neg h1, if_neg h2, if_neg h3, if_neg h4, if_neg h5, if_neg h6]
  exact if_neg h7

/-- Everything `decode_opcode` can answer: operands to collect, a script started at its first frame, or nothing (R175). -/
theorem decodeOpcode_cases (b : Byte) (s : State) :
    (∃ op argn, (op = 1 ∨ op = 2 ∨ op = 5 ∨ op = 6) ∧ (op = 6 → argn = 0) ∧
      decodeOpcode b s = .next { s with op := op, argn := argn, mstate := .arg }) ∨
    (b = 3 ∧ decodeOpcode b s = acceptReset s) ∨
    (b = 4 ∧ decodeOpcode b s =
      .next { s with mstate := .run, kind := .clear, step := 0, ch := 0, val := 0x01, phase := .b1 }) ∨
    (b = 7 ∧ decodeOpcode b s =
      .next { s with mstate := .run, kind := .render, step := 0, ch := 1, val := s.cell 0 0, phase := .b1 }) ∨
    decodeOpcode b s = .next s := by
  rcases opcode_cases b with rfl | rfl | rfl | rfl | rfl | rfl | rfl | h
  · exact .inl ⟨1, s.argn, by simp, by simp, rfl⟩
  · exact .inl ⟨2, s.argn, by simp, by simp, rfl⟩
  · exact .inr (.inl ⟨rfl, rfl⟩)
  · exact .inr (.inr (.inl ⟨rfl, rfl⟩))
  · exact .inl ⟨5, s.argn, by simp, by simp, rfl⟩
  · exact .inl ⟨6, 0, by simp, by simp, rfl⟩
  · exact .inr (.inr (.inr (.inl ⟨rfl, rfl⟩)))
  · exact .inr (.inr (.inr (.inr (decodeOpcode_reserved h s))))

/-- A two-bit register holds 0, 1, 2 or 3. -/
theorem argn_cases (a : BitVec 2) : a = 0 ∨ a = 1 ∨ a = 2 ∨ a = 3 := by
  revert a
  decide

/-- Everything `take_operand` can answer for SETTEXT: another operand to collect, or the end of the command (R177). -/
theorem takeSettext_cases (b : Byte) (s : State) :
    (∃ row col len idx argn lb, lb ∈ [s.lb, textByteMemory b s] ∧
      (argn = 3 → (s.argn = 2 ∧ len = b ∧ b ≠ 0 ∧ idx = 0) ∨
        (s.argn = 3 ∧ len = s.aLen ∧ idx = s.aIdx + 1 ∧ s.aIdx.toNat + 1 ≠ s.aLen.toNat)) ∧
      takeSettext b s =
        .next { s with aRow := row, aCol := col, aLen := len, aIdx := idx, argn := argn, lb := lb }) ∨
    (∃ len idx lb, lb ∈ [s.lb, textByteMemory b s] ∧ takeSettext b s =
      .next { s with aLen := len, aIdx := idx, lb := lb, mstate := .op, trace := s.trace ++ [.ret] }) := by
  rcases argn_cases s.argn with h | h | h | h
  · refine .inl ⟨b, s.aCol, s.aLen, s.aIdx, 1, s.lb, by simp, by simp, ?_⟩
    rw [takeSettext, if_pos h]
  · refine .inl ⟨s.aRow, b, s.aLen, s.aIdx, 2, s.lb, by simp, by simp, ?_⟩
    rw [takeSettext, if_neg (by rw [h]; decide), if_pos h]
  · by_cases hb : b = 0
    · refine .inr ⟨b, 0, s.lb, by simp, ?_⟩
      rw [takeSettext, if_neg (by rw [h]; decide), if_neg (by rw [h]; decide), if_pos h, if_pos hb]
    · refine .inl ⟨s.aRow, s.aCol, b, 0, 3, s.lb, by simp, fun _ => .inl ⟨h, rfl, hb, rfl⟩, ?_⟩
      rw [takeSettext, if_neg (by rw [h]; decide), if_neg (by rw [h]; decide), if_pos h, if_neg hb]
  · by_cases hl : s.aIdx.toNat + 1 = s.aLen.toNat
    · refine .inr ⟨s.aLen, s.aIdx, textByteMemory b s, by simp, ?_⟩
      rw [takeSettext, if_neg (by rw [h]; decide), if_neg (by rw [h]; decide), if_neg (by rw [h]; decide), if_pos hl]
    · refine .inl ⟨s.aRow, s.aCol, s.aLen, s.aIdx + 1, 3, textByteMemory b s, by simp,
        fun _ => .inr ⟨h, rfl, rfl, hl⟩, ?_⟩
      rw [takeSettext, if_neg (by rw [h]; decide), if_neg (by rw [h]; decide), if_neg (by rw [h]; decide), if_neg hl, ← h]

/-- Everything `take_operand` can answer while the invariant holds: the frame of SENDI or SENDD started, SETBL done, or
an answer of SETTEXT (R177). -/
theorem takeOperand_cases {s : State} (ha : ArgInv s) (hm : s.mstate = .arg) (b : Byte) :
    (∃ c, takeOperand b s =
      .next { s with ch := c, val := b, mstate := .run, kind := .one, step := 0, phase := .b1 }) ∨
    takeOperand b s = .next { s with
      bl := backlightLevel b, mstate := .op, trace := s.trace ++ [.bl (backlightLevel b), .ret] } ∨
    (s.op = 6 ∧ takeOperand b s = takeSettext b s) := by
  rcases (ha hm).1 with h | h | h | h
  · refine .inl ⟨0, ?_⟩
    rw [takeOperand, if_pos h]
    rfl
  · refine .inl ⟨1, ?_⟩
    rw [takeOperand, if_neg (by rw [h]; decide), if_pos h]
    rfl
  · refine .inr (.inl ?_)
    rw [takeOperand, if_neg (by rw [h]; decide), if_neg (by rw [h]; decide), if_pos h]
  · refine .inr (.inr ⟨h, ?_⟩)
    rw [takeOperand, if_neg (by rw [h]; decide), if_neg (by rw [h]; decide), if_neg (by rw [h]; decide), if_pos h]

/-! ## The invariant through each operation -/

theorem textByteMemory_wf {s : State} (h : MemoryInv s) (b : Byte) : (textByteMemory b s).wf = true := by
  unfold textByteMemory
  split
  · exact Memory.write_wf h _ _
  · exact h

/-- A script started at its first frame meets the invariant. -/
theorem first_frame_inv {s : State} {k : Kind} {c : Bit} {v : Byte} (hmicro : micro k 0 s = some (.write c v))
    (hinit : s.init = .uninit → k = .reset) (hcs : s.csRs = Config.csActive) (hmem : MemoryInv s) :
    Inv { s with mstate := .run, kind := k, step := 0, ch := c, val := v, phase := .b1 } where
  phase := by simp [PhaseInv]
  timer := by simp [TimerInv]
  position := fun _ => .inl (micro_latched hmicro rfl rfl rfl)
  init := fun h => .inr ⟨rfl, hinit h⟩
  cs := fun _ => hcs
  arg := by simp [ArgInv]
  memory := hmem

theorem acceptReset_inv {s t : State} (hmem : MemoryInv s) (h : acceptReset s = .next t) : Inv t := by
  rw [acceptReset_eq] at h
  cases h
  exact first_frame_inv (s := s.assertCs) (micro_reset_zero _) (fun _ => rfl) rfl hmem

/-- The next position of a script meets the invariant (R178). -/
theorem startNext_inv {s t : State} {o : MicroOp} (hm : s.mstate = .run) (ho : micro s.kind s.step s = some o)
    (hne : o ≠ .done) (hinit : InitInv s) (hcs : CsInv s) (hmem : MemoryInv s) (h : startNext s = .next t) : Inv t := by
  have hcs' : s.csRs = Config.csActive := hcs (by simp [hm])
  have hinit' : s.init = .uninit → s.kind = .reset := fun hu => by
    rcases hinit hu with hb | hb
    · simp [hm] at hb
    · exact hb.2
  obtain ⟨-, ⟨c, v, hmic, he⟩ | ⟨hk, n, hn, hmic, he⟩ | ⟨-, he⟩⟩ := startNext_cases ho hne
  · rw [he] at h
    cases h
    exact
      { phase := by simp [PhaseInv, hm]
        timer := by simp [TimerInv]
        position := fun _ => .inl (micro_latched hmic rfl rfl rfl)
        init := fun hu => .inr ⟨hm, hinit' hu⟩
        cs := fun _ => hcs'
        arg := by simp [ArgInv, hm]
        memory := hmem }
  · rw [he] at h
    cases h
    obtain ⟨h0, hlt, hmax⟩ := extraWaits_bounds n hn
    refine
      { phase := by simp [PhaseInv, hm]
        timer := fun _ => ?_
        position := fun _ => .inr ⟨rfl, hk, n, hn, ?_⟩
        init := fun hu => .inr ⟨hm, hinit' hu⟩
        cs := fun _ => hcs'
        arg := by simp [ArgInv, hm]
        memory := hmem }
    · simp only [BitVec.toNat_ofNat, Nat.mod_eq_of_lt hlt]
      omega
    · rw [← hmic]
      exact micro_congr _ _ rfl rfl rfl
  · rw [he] at h
    cases h
    exact
      { phase := by simp [PhaseInv]
        timer := by simp [TimerInv]
        position := by simp [PositionInv]
        init := fun hu => by
          by_cases hk : s.kind = .reset
          · simp [hk] at hu
          · simp only [State.complete_init, if_neg hk] at hu
            exact absurd (hinit' hu) hk
        cs := fun _ => hcs'
        arg := by simp [ArgInv]
        memory := hmem }

theorem decodeOpcode_inv {s t : State} {b : Byte} (hi : Inv s) (hm : s.mstate = .op) (h : decodeOpcode b s = .next t) :
    Inv t := by
  have hcs : s.csRs = Config.csActive := hi.cs (by simp [hm])
  have hready : s.init ≠ .uninit := fun hu => by
    rcases hi.init hu with hb | hb <;> simp [hm] at hb
  have hidle : s.phase = .idle := by
    by_contra hp
    simp [hi.phase.1 hp] at hm
  rcases decodeOpcode_cases b s with ⟨op, argn, hop, harg, he⟩ | ⟨-, he⟩ | ⟨-, he⟩ | ⟨-, he⟩ | he <;> rw [he] at h
  · cases h
    exact
      { phase := by simp [PhaseInv, hidle]
        timer := by simp [TimerInv, hidle]
        position := by simp [PositionInv]
        init := fun hu => absurd hu hready
        cs := fun _ => hcs
        arg := fun _ => ⟨hop, fun h6 h3 => by
          simp only [harg h6] at h3
          exact absurd h3 (by decide)⟩
        memory := hi.memory }
  · exact acceptReset_inv hi.memory h
  · cases h
    exact first_frame_inv (micro_clear_zero s) (fun hu => absurd hu hready) hcs hi.memory
  · cases h
    exact first_frame_inv (micro_render_zero s) (fun hu => absurd hu hready) hcs hi.memory
  · cases h
    exact hi

theorem takeOperand_inv {s t : State} {b : Byte} (hi : Inv s) (hm : s.mstate = .arg) (h : takeOperand b s = .next t) :
    Inv t := by
  have hcs : s.csRs = Config.csActive := hi.cs (by simp [hm])
  have hready : s.init ≠ .uninit := fun hu => by
    rcases hi.init hu with hb | hb <;> simp [hm] at hb
  have hidle : s.phase = .idle := by
    by_contra hp
    simp [hi.phase.1 hp] at hm
  have hmem : ∀ lb ∈ [s.lb, textByteMemory b s], lb.wf = true := by
    intro lb hlb
    simp only [List.mem_cons, List.not_mem_nil, or_false] at hlb
    rcases hlb with rfl | rfl
    · exact hi.memory
    · exact textByteMemory_wf hi.memory b
  rcases takeOperand_cases hi.arg hm b with ⟨c, he⟩ | he | ⟨h6, he⟩ <;> rw [he] at h
  · cases h
    exact first_frame_inv (s := { s with ch := c, val := b }) (micro_one_zero _) (fun hu => absurd hu hready) hcs hi.memory
  · cases h
    exact
      { phase := by simp [PhaseInv, hidle]
        timer := by simp [TimerInv, hidle]
        position := by simp [PositionInv]
        init := fun hu => absurd hu hready
        cs := fun _ => hcs
        arg := by simp [ArgInv]
        memory := hi.memory }
  · rcases takeSettext_cases b s with ⟨row, col, len, idx, argn, lb, hlb, h3, he'⟩ | ⟨len, idx, lb, hlb, he'⟩ <;>
      rw [he'] at h <;> cases h
    · exact
        { phase := by simp [PhaseInv, hidle, hm]
          timer := by simp [TimerInv, hidle]
          position := by simp [PositionInv, hm]
          init := fun hu => absurd hu hready
          cs := fun _ => hcs
          arg := fun _ => ⟨.inr (.inr (.inr h6)), fun _ ha => by
            rcases h3 ha with ⟨-, rfl, hb, rfl⟩ | ⟨ha', rfl, rfl, hne⟩
            · have : len.toNat ≠ 0 := fun h0 => hb (BitVec.eq_of_toNat_eq (by simpa using h0))
              simpa using Nat.pos_of_ne_zero this
            · have hlt := (hi.arg hm).2 h6 ha'
              have := s.aLen.isLt
              simp only [BitVec.toNat_add]
              rw [Nat.mod_eq_of_lt (by simp; omega)]
              simp
              omega⟩
          memory := hmem lb hlb }
    · exact
        { phase := by simp [PhaseInv, hidle]
          timer := by simp [TimerInv, hidle]
          position := by simp [PositionInv]
          init := fun hu => absurd hu hready
          cs := fun _ => hcs
          arg := by simp [ArgInv]
          memory := hmem lb hlb }

/-- Hardware reset meets the invariant, whatever came before (R40, R230). -/
theorem hardReset_inv (s : State) : Inv s.hardReset where
  phase := by simp [PhaseInv, State.reset]
  timer := by simp [TimerInv, State.reset]
  position := by simp [PositionInv, State.reset]
  init := fun _ => .inl rfl
  cs := fun h => absurd rfl h
  arg := by simp [ArgInv, State.reset]
  memory := rfl

/-- `run_edge` keeps the invariant (R180 to R184, R189). -/
theorem runEdge_inv {s t : State} (hi : Inv s) (hm : s.mstate = .run) (r : Bool) (h : runEdge r s = .next t) : Inv t := by
  have hcs := hi.cs (by simp [hm])
  obtain ⟨o, ho, hne⟩ := hi.micro hm
  rcases hp : s.phase with _ | _ | _ | _ | _
  · exact absurd hp (hi.phase.2 hm)
  · rw [runEdge_b1 hp] at h; cases h
    cases r
    · exact hi
    · exact { phase := by simp [PhaseInv, hm], timer := by simp [TimerInv], position := fun _ => .inl (micro_latched (hi.latched hm (by simp [hp])) rfl rfl rfl), init := hi.init, cs := hi.cs, arg := by simp [ArgInv, hm], memory := hi.memory }
  · rw [runEdge_b2 hp] at h; cases h
    cases r
    · exact hi
    · exact { phase := by simp [PhaseInv, hm], timer := by simp [TimerInv], position := fun _ => .inl (micro_latched (hi.latched hm (by simp [hp])) rfl rfl rfl), init := hi.init, cs := hi.cs, arg := by simp [ArgInv, hm], memory := hi.memory }
  · rw [runEdge_b3 hp] at h; cases h
    cases r
    · exact hi
    · obtain ⟨h0, hlt, hmax⟩ := settle_bounds s.ch s.val
      exact { phase := by simp [PhaseInv, hm], timer := fun _ => by
                  simp only [if_true, BitVec.toNat_ofNat, Nat.mod_eq_of_lt hlt]; omega
              position := fun _ => .inl (micro_latched (hi.latched hm (by simp [hp])) rfl rfl rfl), init := hi.init, cs := hi.cs, arg := by simp [ArgInv, hm], memory := hi.memory }
  · by_cases ht : s.timer = 1
    · have : ∃ n, loadedCount s = some n := by
        rcases hi.loadedCount hm with h | ⟨n, -, h⟩ <;> exact ⟨_, h⟩
      obtain ⟨n, hn⟩ := this
      rw [runEdge_wait_last hp ht hn] at h
      exact startNext_inv (s := s.emit [.wait n]) hm ((micro_congr _ _ rfl rfl rfl).trans ho) hne hi.init hi.cs hi.memory h
    · rw [runEdge_wait_more hp ht] at h; cases h
      refine { phase := hi.phase, timer := fun hw => ?_, position := fun hr => hi.position hr, init := hi.init, cs := hi.cs, arg := hi.arg, memory := hi.memory }
      obtain ⟨a, b⟩ := hi.timer hp
      have hne : s.timer.toNat ≠ 1 := fun h => ht (BitVec.eq_of_toNat_eq (by simpa using h))
      have : (s.timer - 1).toNat = s.timer.toNat - 1 := by
        rw [BitVec.toNat_sub_of_le (by rw [BitVec.le_def]; simp; omega)]; simp
      simp only [this]; omega

/-- `decode_opcode` always answers a next state (R175). -/
theorem decodeOpcode_ex (b s) : ∃ t, decodeOpcode b s = .next t := by
  rcases decodeOpcode_cases b s with ⟨op, argn, hop, harg, he⟩ | ⟨-, he⟩ | ⟨-, he⟩ | ⟨-, he⟩ | he <;> rw [he]
  any_goals exact ⟨_, rfl⟩

/-- `take_operand` answers a next state in every collecting state that meets the invariant (R177). -/
theorem takeOperand_ex {s : State} (ha : ArgInv s) (hm : s.mstate = .arg) (b) : ∃ t, takeOperand b s = .next t := by
  rcases takeOperand_cases ha hm b with ⟨c, he⟩ | he | ⟨h6, he⟩ <;> rw [he]
  any_goals exact ⟨_, rfl⟩
  rcases takeSettext_cases b s with ⟨row, col, len, idx, argn, lb, hlb, h3, he'⟩ | ⟨len, idx, lb, hlb, he'⟩ <;> exact ⟨_, he'⟩

/-- A clock edge does not touch the host's offers. -/
theorem clockEdge_hostIn {p : Pins} {s t : State} (h : clockEdge p s = .next t) : t.hostIn = s.hostIn := by
  rcases hr : p.rst with _ | _
  · rcases hm : s.mstate with _ | _ | _ | _
    · rw [clockEdge_boot hr hm, acceptReset_eq] at h; cases h; rfl
    · rw [clockEdge_op hr hm] at h
      split at h
      · rcases decodeOpcode_cases p.cmdByte s with ⟨op, argn, hop, harg, he⟩ | ⟨-, he⟩ | ⟨-, he⟩ | ⟨-, he⟩ | he <;> rw [he] at h
        · cases h; rfl
        · rw [acceptReset_eq] at h; cases h; rfl
        all_goals cases h; rfl
      · cases h; rfl
    · rw [clockEdge_arg hr hm] at h
      split at h
      · unfold takeOperand at h
        split_ifs at h
        · exact (startFrom_hostIn _ _ _ _ _ h :)
        · exact (startFrom_hostIn _ _ _ _ _ h :)
        · cases h; rfl
        · rcases takeSettext_cases p.cmdByte s with ⟨row, col, len, idx, argn, lb, hlb, h3, he'⟩ | ⟨len, idx, lb, hlb, he'⟩ <;> rw [he'] at h <;> cases h <;> rfl
      · cases h; rfl
    · rw [clockEdge_run hr hm] at h
      unfold runEdge at h
      split at h
      · cases h; split <;> rfl
      · cases h; split <;> rfl
      · cases h; split <;> rfl
      · split at h
        · split at h
          · exact (startFrom_hostIn _ _ _ _ _ h :)
          · cases h
        · cases h; rfl
      · cases h
  · rw [clockEdge_rst hr] at h; cases h; rfl

/-- `decode_opcode` does not look at the host's offers. -/
theorem decodeOpcode_host {b s s'} (h : List HostItem) (he : decodeOpcode b s = .next s') : decodeOpcode b { s with hostIn := h } = .next { s' with hostIn := h } := by
  unfold decodeOpcode at he ⊢
  split_ifs at he ⊢
  all_goals (cases he; rfl)

/-- `take_operand` does not look at the host's offers. -/
theorem takeOperand_host {b s s'} (h : List HostItem) (he : takeOperand b s = .next s') : takeOperand b { s with hostIn := h } = .next { s' with hostIn := h } := by
  unfold takeOperand at he ⊢
  split_ifs at he ⊢
  all_goals first | (cases he; rfl) | skip
  unfold takeSettext at he ⊢
  split_ifs at he ⊢
  all_goals (cases he; rfl)

/-- The invariant does not depend on the host's offers. -/
theorem inv_host {s : State} (h : List HostItem) (hi : Inv s) : Inv { s with hostIn := h } where
  phase := hi.phase
  timer := hi.timer
  position := fun hm => hi.position hm
  init := hi.init
  cs := hi.cs
  arg := hi.arg
  memory := hi.memory

/-- `startNext` keeps the grammar of the wire: it emits at most the `RET`. -/
theorem startNext_wire {s t : State} {o : MicroOp} (ho : micro s.kind s.step s = some o)
    (hne : o ≠ .done) (hw : Wire.between.after s.trace = some .between) (h : startNext s = .next t) : WireSafe t := by
  obtain ⟨-, ⟨c, v, hmic, he⟩ | ⟨hk, n, hn, hmic, he⟩ | ⟨-, he⟩⟩ := startNext_cases ho hne <;> rw [he] at h <;> cases h
  · exact hw
  · unfold WireSafe
    simp only [State.wire]
    have : micro s.kind (s.step+1) { s with step := s.step + 1, timer := BitVec.ofNat Config.timerWidth n, phase := .wait } = some (.extra n) := by
      rw [← hmic]; exact micro_congr _ _ rfl rfl rfl
    rw [this]; exact hw
  · exact after_snoc hw rfl

/-! ## A valid position through each operation (R189 (c)) -/

theorem decodeOpcode_stepInv {s t : State} {b : Byte} (hs : StepInv s) (h : decodeOpcode b s = .next t) : StepInv t := by
  rcases decodeOpcode_cases b s with ⟨op, argn, -, -, he⟩ | ⟨-, he⟩ | ⟨-, he⟩ | ⟨-, he⟩ | he <;> rw [he] at h
  · cases h
    exact stepInv_congr (s := s) rfl rfl hs
  · rw [acceptReset_eq] at h
    cases h
    exact stepInv_first rfl
  · cases h
    exact stepInv_first rfl
  · cases h
    exact stepInv_first rfl
  · cases h
    exact hs

theorem takeOperand_stepInv {s t : State} {b : Byte} (ha : ArgInv s) (hm : s.mstate = .arg) (hs : StepInv s)
    (h : takeOperand b s = .next t) : StepInv t := by
  rcases takeOperand_cases ha hm b with ⟨c, he⟩ | he | ⟨-, he⟩ <;> rw [he] at h
  · cases h
    exact stepInv_first rfl
  · cases h
    exact stepInv_congr (s := s) rfl rfl hs
  · rcases takeSettext_cases b s with ⟨row, col, len, idx, argn, lb, -, -, he'⟩ | ⟨len, idx, lb, -, he'⟩ <;>
      rw [he'] at h <;> cases h <;> exact stepInv_congr (s := s) rfl rfl hs

theorem runEdge_stepInv {s t : State} {r : Bool} (hi : Inv s) (hm : s.mstate = .run) (hs : StepInv s)
    (h : runEdge r s = .next t) : StepInv t := by
  obtain ⟨o, ho, hne⟩ := hi.micro hm
  rcases hp : s.phase with _ | _ | _ | _ | _
  · exact absurd hp (hi.phase.2 hm)
  · rw [runEdge_b1 hp] at h
    cases h
    split <;> exact stepInv_congr (s := s) rfl rfl hs
  · rw [runEdge_b2 hp] at h
    cases h
    split <;> exact stepInv_congr (s := s) rfl rfl hs
  · rw [runEdge_b3 hp] at h
    cases h
    split <;> exact stepInv_congr (s := s) rfl rfl hs
  · by_cases ht : s.timer = 1
    · obtain ⟨n, hn⟩ : ∃ n, loadedCount s = some n := by
        rcases hi.loadedCount hm with h | ⟨n, -, h⟩ <;> exact ⟨_, h⟩
      rw [runEdge_wait_last hp ht hn] at h
      exact startNext_stepInv (s := s.emit [.wait n]) ((micro_congr _ _ rfl rfl rfl).trans ho) hne h
    · rw [runEdge_wait_more hp ht] at h
      cases h
      exact stepInv_congr (s := s) rfl rfl hs

end Sys2Proof.Machine
end

