-- ==== Sys2Proof/Laws/Bytes.lean ====
section
/-! SUPPORT. Command bytes taken one after the other at the command port (R35, R175, R177). -/

namespace Sys2Proof.Machine

/-- The block takes the bytes one by one, in `M_OP` or `M_ARG` at each, from `s` to `t`. -/
inductive Taking : List Byte → State → State → Prop
  | nil (s) : Taking [] s s
  | op {b bs s u t} (hm : s.mstate = .op) (h : decodeOpcode b s = .next u) (ht : Taking bs u t) : Taking (b :: bs) s t
  | arg {b bs s u t} (hm : s.mstate = .arg) (h : takeOperand b s = .next u) (ht : Taking bs u t) : Taking (b :: bs) s t

/-- Taken bytes as clock edges with `cmd_valid = 1`. -/
theorem Taking.clock {bs s t} (h : Taking bs s t) (r : Bool) : clockEdges (bs.map fun b => ⟨false, true, b, r⟩) s = .next t := by
  induction h with
  | nil => rfl
  | op hm h _ ih => rw [List.map_cons, clockEdges, clockEdge_op rfl hm]; simp [h, ih]
  | arg hm h _ ih => rw [List.map_cons, clockEdges, clockEdge_arg rfl hm]; simp [h, ih]

/-- Taken bytes as edges with the host's offers. -/
theorem Taking.counts {bs} : ∀ {s t : State} {rest}, s.hostIn = bs.map .byte ++ rest → Taking bs { s with hostIn := rest } t → Counts bs.length s t := by
  induction bs with
  | nil =>
    intro s t rest hh h
    cases h
    rw [List.map_nil, List.nil_append] at hh
    rw [← hh]; exact ⟨Leads.refl s, rfl⟩
  | cons b bs ih =>
    intro s t rest hh h
    rw [List.length_cons, Nat.add_comm]
    cases h with
    | op hm h ht =>
      rename_i u
      have h' := decodeOpcode_host (bs.map .byte ++ rest) h
      have c1 : Counts 1 s { u with hostIn := bs.map .byte ++ rest } := Counts.one (leads_op (by simpa using hh) hm h') (by rw [edge_op (s := s) (by simpa using hh) hm]; exact h')
      have hu : u.hostIn = rest := by
        have := @clockEdge_hostIn ⟨false, true, b, false⟩ { s with hostIn := rest } u (by rw [clockEdge_op rfl hm]; exact h)
        exact this
      exact c1.trans (ih (rest := rest) rfl (by subst hu; exact ht))
    | arg hm h ht =>
      rename_i u
      have h' := takeOperand_host (bs.map .byte ++ rest) h
      have c1 : Counts 1 s { u with hostIn := bs.map .byte ++ rest } := Counts.one (leads_arg (by simpa using hh) hm h') (by rw [edge_arg (s := s) (by simpa using hh) hm]; exact h')
      have hu : u.hostIn = rest := by
        have := @clockEdge_hostIn ⟨false, true, b, false⟩ { s with hostIn := rest } u (by rw [clockEdge_arg rfl hm]; exact h)
        exact this
      exact c1.trans (ih (rest := rest) rfl (by subst hu; exact ht))

/-- The length byte of a SETTEXT with text (R177). -/
theorem takeOperand_len {b : Byte} {s : State} (ho : s.op = 6) (ha : s.argn = 2) (hb : b ≠ 0) :
    takeOperand b s = .next { s with aLen := b, aIdx := 0, argn := 3 } := by
  rw [takeOperand, if_neg (by rw [ho]; decide), if_neg (by rw [ho]; decide), if_neg (by rw [ho]; decide), if_pos ho,
    takeSettext, if_neg (by rw [ha]; decide), if_neg (by rw [ha]; decide), if_pos ha, if_neg hb]

/-- The text bytes of a SETTEXT, taken one by one, store what the command stores at once (R64, R177). -/
theorem textBytes_taking : ∀ (bs : List Byte) (s : State), s.mstate = .arg → s.op = 6 → s.argn = 3 → bs ≠ [] → s.aIdx.toNat + bs.length = s.aLen.toNat →
    Taking bs s { s with
      lb := if s.aRow.toNat ≤ 3 ∧ s.aCol.toNat ≤ 15 then putText s.aRow.toNat (s.aCol.toNat + s.aIdx.toNat) bs s.lb else s.lb
      aIdx := BitVec.ofNat 8 (s.aLen.toNat - 1)
      mstate := .op
      trace := s.trace ++ [.ret] } := by
  intro bs
  induction bs with
  | nil => intro s _ _ _ h; exact absurd rfl h
  | cons b bs ih =>
    intro s hm ho ha _ hl
    have ht : takeOperand b s = takeSettext b s := by
      rw [takeOperand, if_neg (by rw [ho]; decide), if_neg (by rw [ho]; decide), if_neg (by rw [ho]; decide), if_pos ho]
    have hs : takeSettext b s = if s.aIdx.toNat + 1 = s.aLen.toNat then
    .next { s with lb := textByteMemory b s, mstate := .op, trace := s.trace ++ [.ret] }
  else .next { s with lb := textByteMemory b s, aIdx := s.aIdx + 1 } := by
      rw [takeSettext, if_neg (by rw [ha]; decide), if_neg (by rw [ha]; decide), if_neg (by rw [ha]; decide)]
    have hmem : textByteMemory b s = if s.aRow.toNat ≤ 3 ∧ s.aCol.toNat ≤ 15 then (if s.aCol.toNat + s.aIdx.toNat < Config.cols then s.lb.write (cellAddr s.aRow.toNat (s.aCol.toNat + s.aIdx.toNat)) b else s.lb) else s.lb := by
      unfold textByteMemory
      have : Config.cols = 16 := rfl
      split_ifs <;> first | rfl | omega
    cases bs with
    | nil =>
      rw [if_pos (by simpa using hl)] at hs
      refine .arg hm (ht.trans hs) ?_
      have : BitVec.ofNat 8 (s.aLen.toNat - 1) = s.aIdx := by
        apply BitVec.eq_of_toNat_eq
        have := s.aIdx.isLt
        rw [BitVec.toNat_ofNat]; simp at hl
        rw [Nat.mod_eq_of_lt (by omega)]; omega
      rw [this, hmem]
      exact .nil _
    | cons b' bs =>
      rw [if_neg (by simp at hl; omega)] at hs
      refine .arg hm (ht.trans hs) ?_
      have hidx : (s.aIdx + 1).toNat = s.aIdx.toNat + 1 := by
        have := s.aLen.isLt
        simp at hl
        rw [BitVec.toNat_add]; simp; omega
      have := ih { s with lb := textByteMemory b s, aIdx := s.aIdx + 1 } hm ho ha (by simp) (by
        show (s.aIdx + 1).toNat + _ = s.aLen.toNat
        rw [hidx, ← hl]; simp; omega)
      simp only [hidx, ← Nat.add_assoc] at this
      rw [hmem] at this ⊢
      by_cases hin : s.aRow.toNat ≤ 3 ∧ s.aCol.toNat ≤ 15
      · simp only [if_pos hin] at this ⊢
        exact this
      · simp only [if_neg hin] at this ⊢
        exact this

end Sys2Proof.Machine
end

