-- ==== Sys2Proof/Laws/PerInstr.lean ====
section
/-! SUPPORT. What is proved of every instruction as syntax, one lemma for each constructor. -/

namespace Sys2Proof.Laws.EncodedLength

/-- A well-formed instruction is encoded in as many bytes as its length says (R86, R89), between 1 and 259. -/
def Statement (i : Instr) : Prop :=
  i.wf = true → (encode i).length = i.length ∧ 1 ≤ i.length ∧ i.length ≤ 259

theorem sendi (v : Byte) : Statement (.sendi v) := fun _ => ⟨rfl, by simp [Instr.length], by simp [Instr.length]⟩

theorem sendd (v : Byte) : Statement (.sendd v) := fun _ => ⟨rfl, by simp [Instr.length], by simp [Instr.length]⟩

theorem reset : Statement .reset := fun _ => ⟨rfl, by simp [Instr.length], by simp [Instr.length]⟩

theorem clear : Statement .clear := fun _ => ⟨rfl, by simp [Instr.length], by simp [Instr.length]⟩

theorem setbl (imm8 : Byte) : Statement (.setbl imm8) := fun _ => ⟨rfl, by simp [Instr.length], by simp [Instr.length]⟩

theorem settext (row col : Byte) (text : List Byte) : Statement (.settext row col text) := by
  intro h
  have hl : text.length ≤ 255 := by simpa [Instr.wf] using h
  refine ⟨?_, ?_, ?_⟩
  · simp only [encode, Instr.length, List.length_cons]
    omega
  · simp only [Instr.length]
    omega
  · simp only [Instr.length]
    omega

theorem render : Statement .render := fun _ => ⟨rfl, by simp [Instr.length], by simp [Instr.length]⟩

theorem frameI (v : Byte) : Statement (.frameI v) := fun _ => ⟨rfl, by simp [Instr.length], by simp [Instr.length]⟩

theorem frameD (v : Byte) : Statement (.frameD v) := fun _ => ⟨rfl, by simp [Instr.length], by simp [Instr.length]⟩

end Sys2Proof.Laws.EncodedLength
end

