-- ==== Sys2Proof/Laws/Steps.lean ====
section
/-! SUPPORT. One step of the machine: what it answers in each position, and what the commands do to the fields the invariant speaks of. -/

namespace Sys2Proof.Machine

/-! ## What a command does to the parts of the state -/

/-- Every instruction answers a next state (R200). -/
theorem exec_ex (i : Instr) (s : State) : ∃ t, exec i s = .next t := by cases i <;> exact ⟨_, rfl⟩

/-- A command leaves the block idle (R178). -/
theorem exec_phase {i : Instr} {s t : State} (hidle : s.phase = .idle) (hc : i.isCommand = true) (h : exec i s = .next t) : t.phase = .idle := by
  cases i with
  | reset => cases h; rfl
  | render => rw [show exec .render s = _ from execRender_eq s] at h; cases h; rfl
  | frameI _ => cases hc
  | frameD _ => cases hc
  | settext _ _ _ => cases h; exact hidle
  | setbl _ => cases h; exact hidle
  | _ => cases h; rfl

/-- Every instruction keeps the canonical form of the line buffer. -/
theorem exec_wf {i : Instr} {s t : State} (hm : MemoryInv s) (h : exec i s = .next t) : MemoryInv t := by
  cases i with
  | reset =>
    cases h
    show (resetFrames _).lb.wf = true
    rw [resetFrames_lb]; exact hm
  | render =>
    rw [show exec .render s = _ from execRender_eq s] at h; cases h
    unfold MemoryInv
    rw [State.complete_lb, State.writeAll_lb]; exact hm
  | settext _ _ _ => cases h; exact Memory.settextMemory_wf _ _ _ hm
  | _ => cases h; exact hm

/-- No instruction touches the host's offers. -/
theorem exec_hostIn {i : Instr} {s t : State} (h : exec i s = .next t) : t.hostIn = s.hostIn := by
  cases i with
  | reset =>
    cases h
    exact resetFrames_hostIn _
  | render =>
    rw [show exec .render s = _ from execRender_eq s] at h; cases h
    rw [State.complete_hostIn, State.writeAll_hostIn]
  | _ => cases h; rfl

/-- Frames do not look at the host's offers. -/
theorem writeAll_host (c) : ∀ (xs : List Byte) (s : State) h, ({ s with hostIn := h } : State).writeAll c xs = { s.writeAll c xs with hostIn := h } := by
  intro xs
  induction xs with
  | nil => intros; rfl
  | cons x xs ih => intro s h; exact ih (s.write c x) h

/-- No instruction looks at the host's offers. -/
theorem exec_host {i : Instr} {s t : State} (h : List HostItem) (he : exec i s = .next t) : exec i { s with hostIn := h } = .next { t with hostIn := h } := by
  cases i with
  | render =>
    rw [show exec .render s = _ from execRender_eq s] at he; cases he
    rw [show exec .render { s with hostIn := h } = _ from execRender_eq _]
    rw [writeAll_host]; rfl
  | _ => cases he; rfl

/-- Every instruction leaves a valid position: the one it found, or the `END` of its own script (R178, R189 (c)). -/
theorem exec_stepInv {i : Instr} {s t : State} (hs : StepInv s) (h : exec i s = .next t) : StepInv t := by
  cases i with
  | sendi v => cases h; exact stepInv_of_micro (s := s) (o := .done) (k := .one) (n := 1) rfl rfl rfl
  | sendd v => cases h; exact stepInv_of_micro (s := s) (o := .done) (k := .one) (n := 1) rfl rfl rfl
  | reset => cases h; exact stepInv_of_micro (s := s) (o := .done) (k := .reset) (n := 9) rfl rfl rfl
  | clear => cases h; exact stepInv_of_micro (s := s) (o := .done) (k := .clear) (n := 2) rfl rfl rfl
  | render =>
    rw [show exec .render s = _ from execRender_eq s] at h
    cases h
    exact stepInv_of_micro (s := s) (o := .done) (k := .render) (n := 64) rfl rfl rfl
  | setbl _ => cases h; exact stepInv_congr (s := s) rfl rfl hs
  | settext _ _ _ => cases h; exact stepInv_congr (s := s) rfl rfl hs
  | frameI _ => cases h; exact stepInv_congr (s := s) rfl rfl hs
  | frameD _ => cases h; exact stepInv_congr (s := s) rfl rfl hs

/-! ## The step -/

/-- The bytes at the head of the host's offers. -/
theorem offered_bytes (bs : List Byte) (rest) : offered (bs.map .byte ++ rest) = bs ++ offered rest := by
  induction bs with
  | nil => rfl
  | cons b bs ih => simp [offered, ih]

/-- The offered bytes are the host's items up to the next reset. -/
theorem take_offered : ∀ (h : List HostItem) (n : Nat), n ≤ (offered h).length → h.take n = ((offered h).take n).map .byte := by
  intro h
  induction h with
  | nil => intro n hn; simp [offered]
  | cons x h ih =>
    intro n hn
    cases n with
    | zero => rfl
    | succ n =>
      cases x with
      | byte b => simp [offered] at hn ⊢; rw [ih n hn, List.map_take]
      | rst => simp [offered] at hn

/-- With no reset at the head, the position decides (R173). -/
theorem advance_of_no_reset {s : State} (hr : ∀ rest, s.hostIn ≠ .rst :: rest) : step s = advancePosition s := by
  unfold step advance
  split
  · rename_i h; exact absurd h (hr _)
  · rfl
  · rfl

/-- An idle block fetches a command. -/
theorem step_op {s : State} (hr : ∀ rest, s.hostIn ≠ .rst :: rest) (hm : s.mstate = .op) : step s = fetchCommand s := by
  rw [advance_of_no_reset hr, advancePosition, hm]

/-- The frame micro-operation on the latches (R110). -/
theorem frameInstr_exec (s : State) : exec (frameInstr s.ch s.val) s = .next { s with timer := 1, trace := s.trace ++ frameEvents s.ch s.val } := by
  unfold frameInstr
  rcases channel_cases s.ch with h | h
  · rw [if_neg (by rw [h]; decide)]
    show Host.Outcome.next (s.write 0 s.val) = _
    rw [← h]; rfl
  · rw [if_pos h]
    show Host.Outcome.next (s.write 1 s.val) = _
    rw [← h]; rfl

/-- The events the micro-operation in progress still owes. -/
def pending (s : State) : List Event :=
  match s.phase with
  | .b1 => frameEvents s.ch s.val
  | .b2 => (frameEvents s.ch s.val).drop 1
  | .b3 => (frameEvents s.ch s.val).drop 2
  | .wait => match loadedCount s with
    | some n => [.wait n]
    | none => []
  | .idle => []

/-- Finishing a micro-operation: the events it owes, then the next one. -/
theorem finishMicro_eq {s : State} (hi : Inv s) (hm : s.mstate = .run) :
    finishMicro s = startNext { s with timer := 1, trace := s.trace ++ pending s } := by
  unfold finishMicro pending
  rcases hp : s.phase with _ | _ | _ | _ | _
  · exact absurd hp (hi.phase.2 hm)
  · simp only [frameInstr_exec, andThen_next, hp]
  · rfl
  · rfl
  · have : ∃ n, loadedCount s = some n := by
      rcases hi.loadedCount hm with h | ⟨n, -, h⟩ <;> exact ⟨_, h⟩
    obtain ⟨n, hn⟩ := this
    simp only [hn]

/-- The clock edges come to where `finishMicro` comes (R187). -/
theorem finishMicro_leads {s t : State} (hi : Inv s) (hm : s.mstate = .run) (hr : ∀ rest, s.hostIn ≠ .rst :: rest)
    (h : finishMicro s = .next t) : Leads s t := by
  rw [finishMicro_eq hi hm, ← startNext_phase .wait] at h
  unfold pending at h
  rcases hp : s.phase with _ | _ | _ | _ | _
  · exact absurd hp (hi.phase.2 hm)
  · exact leads_frame_b1 hr hm hp (hi.latched hm (by simp [hp])) (by simpa [hp] using h)
  · exact leads_frame_b2 hr hm hp (hi.latched hm (by simp [hp])) (by simpa [hp] using h)
  · exact leads_frame_b3 hr hm hp (hi.latched hm (by simp [hp])) (by simpa [hp] using h)
  · have : ∃ n, loadedCount s = some n := by
      rcases hi.loadedCount hm with h | ⟨n, -, h⟩ <;> exact ⟨_, h⟩
    obtain ⟨n, hn⟩ := this
    simp only [hp, hn] at h
    exact leads_wait hr hm hp (hi.timer hp).1 hn (by rw [← startNext_phase .wait]; exact h)

/-! ## Runs -/

/-- A run of one more step. -/
theorem run_succ_next (M : Host.Core) (n : Nat) (s t : M.State) : M.run (n + 1) s = .next t ↔ ∃ u, M.step s = .next u ∧ M.run n u = .next t := by
  rw [Host.Core.run]; cases M.step s <;> simp

/-- A run begins with its first step. -/
theorem run_succ_of (M : Host.Core) (n : Nat) {s u : M.State} (h : M.step s = .next u) : M.run (n + 1) s = M.run n u := by
  rw [Host.Core.run, h]

end Sys2Proof.Machine
end

