-- ==== Sys2Proof/Tests/Slice0.lean ====
section
/-! SUPPORT. The model's own tests. Expected results come from spec/: 95_test_vectors.md (V1 to V10, E9) and the rules
named. Then one witness for every statement that has hypotheses: concrete values that meet all of them. -/

namespace Sys2Proof.Tests

open Sys2Proof.Machine

/-! ## Helpers -/

/-- The idle block after the automatic RESET, its trace left empty (95_test_vectors.md, "Reset state"). -/
def idle : State := { State.reset with init := .ready, csRs := 1, mstate := .op }

/-- The idle block with bytes offered. -/
def offering (bs : List Byte) : State := { idle with hostIn := bs.map .byte }

/-- The block collecting the operand of an opcode. -/
def collecting (op : BitVec 3) : State := { idle with op := op, mstate := .arg }

/-- The block sending the one frame of SENDD 0x41, at a phase. -/
def sending (p : Phase) : State := { idle with ch := 1, val := 0x41, mstate := .run, kind := .one, phase := p }

/-- The block in the settle of SENDD 0x41, with a timer value. -/
def settling (t : BitVec 14) : State := { sending .wait with timer := t }

/-- The block in the last settle of the RESET sequence. -/
def lastSettle : State :=
  { idle with init := .uninit, val := 0x06, mstate := .run, kind := .reset, step := 8, phase := .wait, timer := 1 }

/-- The next state, if there is one. -/
def after (o : Host.Outcome State Fault Refusal) : Option State :=
  match o with
  | .next s => some s
  | .fault _ => none
  | .refused _ => none

/-- The trace of the next state. -/
def traceOf (o : Host.Outcome State Fault Refusal) : Option (List Event) := (after o).map (·.trace)

/-- The pins of an edge that offers a command byte. -/
def byteEdge (b : Byte) : Pins := { rst := false, cmdValid := true, cmdByte := b, txReady := false }

/-- The pins of an edge at which only the transport does something. -/
def txEdge (r : Bool) : Pins := { rst := false, cmdValid := false, cmdByte := 0, txReady := r }

/-- The pins of an edge with hardware reset. -/
def rstEdge : Pins := { rst := true, cmdValid := true, cmdByte := 0x07, txReady := true }

/-- The schedule that is always ready. -/
def always : Nat → Env := fun _ => { offer := true, txReady := true }

/-! ## Well-formedness -/

theorem test_wf_settext_255 : Instr.wf (.settext 0 0 (List.replicate 255 0)) = true := by decide +kernel

theorem test_wf_settext_256_refused : Instr.wf (.settext 0 0 (List.replicate 256 0)) = false := by decide +kernel

/-! ## Decoding: every row, words written out from R80, R82, R90 (V1, E9) -/

theorem test_decode_sendi : decodeTableWord 16 0b00000001_00110000 = some (.sendi 0x30) := by decide

theorem test_decode_sendd : decodeTableWord 16 0b00000010_01001000 = some (.sendd 0x48) := by decide

theorem test_decode_reset : decodeTableWord 8 0b00000011 = some .reset := by decide

theorem test_decode_clear : decodeTableWord 8 0b00000100 = some .clear := by decide

theorem test_decode_setbl : decodeTableWord 16 0b00000101_11111110 = some (.setbl 0xFE) := by decide

theorem test_decode_settext : decodeTableWord 32 0b00000110_00000010_00000011_00000000 = some (.settext 2 3 []) := by
  decide +kernel

/-- The operand bytes the table's word does not hold are zeros. -/
theorem test_decode_settext_zeros :
    decodeTableWord 32 0b00000110_00000001_00000000_00000010 = some (.settext 1 0 [0, 0]) := by decide +kernel

theorem test_decode_render : decodeTableWord 8 0b00000111 = some .render := by decide

theorem test_decode_frame_instruction : decodeTableWord 24 0b11111000_00110000_00000000 = some (.frameI 0x30) := by decide

theorem test_decode_frame_data : decodeTableWord 24 0b11111010_10100000_01010000 = some (.frameD 0xA5) := by decide

/-- A sync byte with R/W = 1 is never produced (R94). -/
theorem test_decode_read_frame_refused : decodeTableWord 24 0b11111110_10100000_01010000 = none := by decide

theorem test_decode_low_nibble_refused : decodeFrame [0xF8, 0x31, 0x00] = .rejected (.badHigh 0x31) := by decide

/-- V1 line 13. -/
theorem test_decode_reserved :
    decode [0x00] = .reserved 0x00 ∧ decode [0x08] = .reserved 0x08 ∧ decode [0xFF] = .reserved 0xFF := by decide

/-- V1 line 11: the text bytes of an ignored SETTEXT are consumed as text. -/
theorem test_decode_settext_consumes_text :
    decode [0x06, 0x09, 0x00, 0x02, 0x03, 0x04, 0x07] = .instr (.settext 9 0 [0x03, 0x04]) 6 := by decide

/-- E9: the 24 bits in wire order. -/
theorem test_wire_bits : wireBits 1 0xA5 =
    [true, true, true, true, true, false, true, false, true, false, true, false, false, false, false, false,
      false, true, false, true, false, false, false, false] := by decide

/-- R100, R101: `SETTEXT 0, "HELLO"` of P1 with a comment. -/
theorem test_assemble_settext : assemble ["  SETTEXT 0, \"HELLO\"  ; text", "RENDER"] =
    some [0x06, 0x00, 0x00, 0x05, 0x48, 0x45, 0x4C, 0x4C, 0x4F, 0x07] := by decide

theorem test_assemble_char : assemble ["SENDD 'H'", "CLS", "SENDI 0x30"] = some [0x02, 0x48, 0x01, 0x01, 0x01, 0x30] := by
  decide

/-! ## The commands, one step each -/

/-- V2, V3: the long settle. -/
theorem test_sendi_clear : traceOf (exec (.sendi 0x01) idle) =
    some [.tx 0xF8, .tx 0x00, .tx 0x10, .wait 1600, .ret] := by decide

theorem test_sendi_short : traceOf (exec (.sendi 0x5A) idle) = some [.tx 0xF8, .tx 0x50, .tx 0xA0, .wait 72, .ret] := by
  decide

/-- V3: the long settle is not for data. -/
theorem test_sendd_one : traceOf (exec (.sendd 0x01) idle) = some [.tx 0xFA, .tx 0x00, .tx 0x10, .wait 72, .ret] := by
  decide

theorem test_sendd_nibbles : traceOf (exec (.sendd 0xA5) idle) = some [.tx 0xFA, .tx 0xA0, .tx 0x50, .wait 72, .ret] := by
  decide

/-- V4. -/
theorem test_reset_trace : traceOf (step State.reset) = some
    [.cs 1, .tx 0xF8, .tx 0x30, .tx 0x00, .wait 72, .wait 100, .tx 0xF8, .tx 0x30, .tx 0x00, .wait 72, .wait 47,
      .tx 0xF8, .tx 0x00, .tx 0xC0, .wait 72, .wait 100, .tx 0xF8, .tx 0x00, .tx 0x10, .wait 1600, .wait 8400,
      .tx 0xF8, .tx 0x00, .tx 0x60, .wait 72, .ret] := by decide

/-- V4: RESET keeps the text and the backlight. -/
theorem test_reset_keeps : (after (exec .reset { idle with lb := [(5, 0x41)], bl := 1 })).map (fun t => (t.lb, t.bl, t.init)) =
    some ([(5, 0x41)], 1, .ready) := by decide

/-- V7. -/
theorem test_clear_trace : traceOf (exec .clear idle) =
    some [.tx 0xF8, .tx 0x00, .tx 0x10, .wait 1600, .tx 0xF8, .tx 0x80, .tx 0x00, .wait 72, .ret] := by decide

theorem test_clear_keeps_text : (after (exec .clear { idle with lb := [(0, 0x48)] })).map (·.lb) = some [(0, 0x48)] := by
  decide

/-- V8: bit 0 only. -/
theorem test_setbl_off : (after (exec (.setbl 0xFE) { idle with bl := 1 })).map (fun t => (t.bl, t.trace)) =
    some (0, [.bl 0, .ret]) := by decide

theorem test_setbl_on : (after (exec (.setbl 0x03) idle)).map (fun t => (t.bl, t.trace)) = some (1, [.bl 1, .ret]) := by
  decide

/-- V5 line 11: truncation at the end of the row. -/
theorem test_settext_truncates :
    (after (exec (.settext 1 12 [0x41, 0x42, 0x43, 0x44, 0x45, 0x46, 0x47, 0x48]) idle)).map (fun t => (t.lb, t.trace)) =
      some ([(28, 0x41), (29, 0x42), (30, 0x43), (31, 0x44)], [.ret]) := by decide

/-- V5 lines 5 and 8: out of range, nothing is written. -/
theorem test_settext_out_of_range : (after (exec (.settext 4 0 [0x58]) idle)).map (·.lb) = some [] ∧
    (after (exec (.settext 2 255 [0x59]) idle)).map (·.lb) = some [] := by decide

/-- V6 (b): rows in the order 0, 2, 1, 3; the third byte of frames 0, 16, 32 and 48. -/
theorem test_render_order : (after (exec .render { idle with lb := [(0, 0x41), (16, 0x42), (32, 0x43), (48, 0x44)] })).map
    (fun t => [(txBytes t.trace)[2]?, (txBytes t.trace)[50]?, (txBytes t.trace)[98]?, (txBytes t.trace)[146]?]) =
    some [some 0x10, some 0x30, some 0x20, some 0x40] := by decide +kernel

/-- V6 (a): 64 spaces from the reset state. -/
theorem test_render_spaces : (traceOf (exec .render idle)).map (fun es => (es.take 4, es.length, totalWait es)) =
    some ([.tx 0xFA, .tx 0x20, .tx 0x00, .wait 72], 257, 4608) := by decide +kernel

theorem test_frame_instruction : traceOf (exec (.frameI 0x06) idle) = some [.tx 0xF8, .tx 0x00, .tx 0x60, .wait 72] := by
  decide

theorem test_frame_data : traceOf (exec (.frameD 0xFF) idle) = some [.tx 0xFA, .tx 0xF0, .tx 0xF0, .wait 72] := by decide

/-! ## A placed word is run as the first instruction after reset -/

theorem test_placed_sendi : traceOf (step (State.reset.withFetchWord 16 0x0130)) =
    some [.tx 0xF8, .tx 0x30, .tx 0x00, .wait 72, .ret] := by decide

theorem test_placed_frame : traceOf (step (State.reset.withFetchWord 24 0xFAA050)) =
    some [.tx 0xFA, .tx 0xA0, .tx 0x50, .wait 72, .ret] := by decide

/-! ## The cycle level -/

/-- V9 (a), edges 0 to 4: after the third byte the timer holds 72. -/
theorem test_edges_sendi :
    (after (clockEdges [byteEdge 0x01, byteEdge 0x30, txEdge true, txEdge true, txEdge true] idle)).map
      (fun t => (t.phase, t.timer, t.trace)) = some (.wait, 72, [.tx 0xF8, .tx 0x30, .tx 0x00]) := by decide

/-- V9 (c): the offered byte waits for the transport. -/
theorem test_edge_waits : (after (clockEdge (txEdge false) (sending .b1))).map (fun t => (t.phase, t.txByte, t.trace)) =
    some (.b1, 0xFA, []) := by decide

/-- V10 (a): a reset in the middle of a frame emits nothing. -/
theorem test_reset_cuts_frame : (after (clockEdge rstEdge (sending .b2))).map (fun t => (t.mstate, t.phase, t.trace)) =
    some (.boot, .idle, []) := by decide

/-- V9 (a), edge 76: the last edge of the settle ends the command. -/
theorem test_settle_ends : (after (clockEdge (txEdge false) (settling 1))).map (fun t => (t.mstate, t.step, t.trace)) =
    some (.op, 1, [.wait 72, .ret]) := by decide

/-- V9 (g): the last text byte of a SETTEXT ends it at once. -/
theorem test_edges_settext : (after (clockEdges ([0x06, 0x00, 0x00, 0x02, 0x41, 0x42].map byteEdge) idle)).map
    (fun t => (t.mstate, t.lb, t.trace)) = some (.op, [(0, 0x41), (1, 0x42)], [.ret]) := by decide

/-- P5, V10: a promise of at least so many cycles is kept by a longer wait and broken by a shorter one (R13). -/
theorem test_keeps_promise : keepsPromise [.tx 1, .wait 72] [.tx 1, .wait 80] = true ∧
    keepsPromise [.tx 1, .wait 72] [.tx 1, .wait 71] = false := by decide

/-- The model's choice (log 25), not the spec's: adjacent waits are compared one by one and not by their sum, and a wait of
0 counts until it is dropped. -/
theorem test_keeps_promise_wait_by_wait :
    keepsPromise [.wait 72, .wait 100] [.wait 72, .wait 100] = true ∧
    keepsPromise [.wait 72, .wait 100] [.wait 172] = false ∧ keepsPromise [.wait 72, .wait 100] [.wait 70, .wait 102] = false ∧
    keepsPromise [.ret] [.wait 0, .ret] = false ∧ keepsPromise [.ret] (dropZeroWaits [.wait 0, .ret]) = true := by decide

/-- R12: a wait of 0 may be dropped. -/
theorem test_drop_zero_waits : dropZeroWaits [.wait 0, .ret, .wait 1] = [.ret, .wait 1] := by decide

/-! ## The invariant holds of the helper states -/

theorem idle_inv : Inv idle := ⟨by decide, by decide, by decide, by decide, by decide, by decide, by decide⟩

theorem offering_inv (bs : List Byte) : Inv (offering bs) := inv_host _ idle_inv

theorem sending_inv : Inv (sending .b1) := ⟨by decide, by decide, by decide, by decide, by decide, by decide, by decide⟩

theorem settling_inv : Inv (settling 1) := ⟨by decide, by decide, by decide, by decide, by decide, by decide, by decide⟩

theorem lastSettle_inv : Inv lastSettle := ⟨by decide, by decide, by decide, by decide, by decide, by decide, by decide⟩

theorem idle_machineInv : MachineInv idle := ⟨idle_inv, by decide, by decide⟩

/-- `StepInv` says something: an idle block at step 100 of a script of two positions does not meet it. -/
theorem test_stepInv_refuses : ¬StepInv { idle with kind := .one, step := 100 } := by decide

/-- The last position of each script is valid, the one after it is not (R172). -/
theorem test_stepInv_bounds : StepInv { idle with kind := .one, step := 1 } ∧ ¬StepInv { idle with kind := .one, step := 2 } ∧
    StepInv { idle with kind := .reset, step := 9 } ∧ ¬StepInv { idle with kind := .reset, step := 10 } ∧
    StepInv { idle with kind := .clear, step := 2 } ∧ ¬StepInv { idle with kind := .clear, step := 3 } ∧
    StepInv { idle with kind := .render, step := 64 } ∧ ¬StepInv { idle with kind := .render, step := 65 } := by
  decide +kernel

theorem always_fair : Fair always := ⟨fun n => ⟨n, Nat.le_refl n, rfl⟩, fun n => ⟨n, Nat.le_refl n, rfl⟩⟩

/-! ## Witnesses: the hypotheses of the statements, met

Statements without hypotheses need none: SendiSendsInstructionFrame, SenddSendsDataFrame,
ResetRunsInitialisationSequence, ClearSendsClearThenHome, SetblDrivesBacklightLine, RenderSendsTheLineBuffer,
WriteSendsOneFrame, ClearComposesTwoSendi, FrameBitFields, FrameDecoderAcceptsOnlyFrames,
WordsDecodeToTheirInstructions, PseudoInstructionsExpand, ResetStateValues, ResetStateIsSafe. -/

/-- Both clauses at the edges of their ranges: the start in range at (3, 15), out of it at (4, 0) and (0, 16). -/
theorem witness_SettextWritesItsCells : ([0x41] : List Byte).length ≤ 255 ∧ MemoryInv idle ∧
    ((3 : Byte).toNat ≤ 3 ∧ (15 : Byte).toNat ≤ 15) ∧ ¬(4 : Byte).toNat ≤ 3 ∧ ¬(16 : Byte).toNat ≤ 15 ∧
    (List.replicate 255 (0 : Byte)).length ≤ 255 := by decide +kernel

theorem witness_SettextOutOfRangeIsNoOp :
    (3 < (4 : Byte).toNat ∨ 15 < (0 : Byte).toNat) ∧ (3 < (0 : Byte).toNat ∨ 15 < (16 : Byte).toNat) := by decide

/-- The last column: one character lands and the next is dropped. -/
theorem witness_SettextTruncatesAtRowEnd : MemoryInv idle ∧ (3 : Byte).toNat ≤ 3 ∧ (15 : Byte).toNat ≤ 15 ∧
    0 < ([0x5A, 0x21] : List Byte).length ∧ (15 : Byte).toNat + 0 ≤ 15 ∧ ¬(15 : Byte).toNat + 1 ≤ 15 := by decide

theorem witness_SettextTwiceIsSettextOnce : MemoryInv idle ∧ ∃ t u,
    exec (.settext 3 15 [0x5A, 0x21]) idle = .next t ∧ exec (.settext 3 15 [0x5A, 0x21]) t = .next u :=
  ⟨rfl, _, _, rfl, rfl⟩

theorem witness_RenderOrderIsRho : 0 < 64 ∧ 16 < 64 ∧ 63 < 64 := by decide

theorem witness_SettleClassOfEveryWrite : ¬((1 : Bit) = 0 ∧ (0x01 : Byte) = 0x01) ∧ ¬((0 : Bit) = 0 ∧ (0x00 : Byte) = 0x01) := by
  decide

theorem witness_ResetTotals : ∃ t, exec .reset idle = .next t := ⟨_, rfl⟩

theorem witness_RenderTotals : ∃ t, exec .render idle = .next t := ⟨_, rfl⟩

theorem witness_EveryCommandReturns : Instr.isCommand .clear = true ∧ Instr.isCommand (.settext 4 0 [0x58]) = true := by
  decide

/-- The clauses for RESET alone, for all but RESET, and for a bare frame. -/
theorem witness_SendingCommandsFrame : (∃ t, exec .reset idle = .next t) ∧ (∃ t, exec .clear idle = .next t) ∧
    (∃ t, exec (.frameI 0x06) idle = .next t) ∧ (∃ t, exec (.sendi 0x01) idle = .next t) ∧
    Instr.isCommand (.frameI 0x06) = false ∧ Instr.clear ≠ .reset :=
  ⟨⟨_, rfl⟩, ⟨_, rfl⟩, ⟨_, rfl⟩, ⟨_, rfl⟩, rfl, by decide⟩

/-- An address that is stored to, and one that is not. -/
theorem witness_SettextFrame : (∃ t, exec (.settext 3 15 [0x5A, 0x21]) idle = .next t) ∧
    startInRange 3 15 = true ∧ (15 : Byte).toNat + 0 < Config.cols ∧ cellAddr 3 15 = 63 ∧ (0 : Nat) ≠ cellAddr 3 15 :=
  ⟨⟨_, rfl⟩, by decide⟩

theorem witness_SetblFrame : ∃ t, exec (.setbl 0x01) idle = .next t := ⟨_, rfl⟩

/-- Each clause: a changed cell, a changed backlight, a changed `init`. -/
theorem witness_WhoWritesWhat : (∃ t, exec (.settext 0 0 [0x41]) idle = .next t ∧ t.lb ≠ idle.lb) ∧
    (∃ t, exec (.setbl 0x01) idle = .next t ∧ t.bl ≠ idle.bl) ∧
    ∃ t, exec .reset State.reset = .next t ∧ t.init ≠ State.reset.init ∧ t.csRs ≠ State.reset.csRs :=
  ⟨⟨_, rfl, by decide⟩, ⟨_, rfl, by decide⟩, ⟨_, rfl, by decide, by decide⟩⟩

theorem witness_FrameReassembly : frameBytes 1 0xA5 = frameBytes 1 0xA5 := rfl

/-- A command at the largest text, and a frame. -/
theorem witness_DecodeOfEncode : Instr.wf (.settext 0 0 (List.replicate 255 0)) = true ∧
    Instr.isCommand (.settext 0 0 (List.replicate 255 0)) = true ∧ Instr.wf (.frameD 0xFF) = true ∧
    Instr.isCommand (.frameD 0xFF) = false := by decide +kernel

theorem witness_DecodedBytesAreTheEncoding :
    decode [0x06, 0x09, 0x00, 0x02, 0x03, 0x04, 0x07] = .instr (.settext 9 0 [0x03, 0x04]) 6 := by decide

/-- The edges of the reserved ranges. -/
theorem witness_ReservedOpcodeIsDiscarded : ((0x00 : Byte) = 0 ∨ 8 ≤ (0x00 : Byte).toNat) ∧
    ((0x08 : Byte) = 0 ∨ 8 ≤ (0x08 : Byte).toNat) ∧ ((0xFF : Byte) = 0 ∨ 8 ≤ (0xFF : Byte).toNat) ∧
    ¬((0x07 : Byte) = 0 ∨ 8 ≤ (0x07 : Byte).toNat) ∧ (offering [0x08, 0x07]).mstate = .op ∧
    (offering [0x08, 0x07]).hostIn = .byte 0x08 :: [.byte 0x07] := by decide

theorem witness_HardwareResetWins : rstEdge.rst = true ∧ ∃ t, clockEdge rstEdge (sending .b2) = .next t := ⟨rfl, _, rfl⟩

theorem witness_AutomaticResetRuns : State.reset.mstate = .boot ∧ (txEdge true).rst = false ∧
    ∀ rest, State.reset.hostIn ≠ .rst :: rest := ⟨rfl, rfl, (fun _ h => by cases h)⟩

theorem witness_ClockEdgeKeepsInvariant : Inv idle ∧ MachineInv idle ∧ ∃ t, clockEdge (byteEdge 0x07) idle = .next t :=
  ⟨idle_inv, idle_machineInv, _, rfl⟩

theorem witness_ClockEdgeNeverStops : Inv (sending .b1) ∧ Inv (settling 1) := ⟨sending_inv, settling_inv⟩

theorem witness_ClockEdgeKeepsWireGrammar : (txEdge true).rst = false ∧ Inv (sending .b1) ∧ WireSafe (sending .b1) ∧
    ∃ t, clockEdge (txEdge true) (sending .b1) = .next t := ⟨rfl, sending_inv, rfl, _, rfl⟩

/-- Each position, with pins that differ where the statement lets them differ. -/
theorem witness_PinsCountOnlyWhereRuled : (txEdge false).rst = false ∧ (byteEdge 0x07).rst = false ∧
    (State.reset.cmdReady = false ∧ State.reset.mstate ≠ .run) ∧
    ((sending .b1).cmdReady = false ∧ (txEdge false).txReady = (byteEdge 0x07).txReady) ∧
    (idle.cmdReady = true ∧ (txEdge false).cmdValid = false) := by decide

theorem witness_TransportHandshake : (txEdge true).rst = false ∧ (sending .b1).mstate = .run ∧
    (sending .b1).txValid = true ∧ (sending .b3).txValid = true ∧ (txEdge false).txReady = false ∧
    (txEdge true).txReady = true := by decide

/-- A byte that is taken and one that is not. -/
theorem witness_CommandPortHandshake :
    ((offering [0x04]).hostIn = .byte 0x04 :: [] ∧ ∃ t, edge ⟨true, false⟩ (offering [0x04]) = .next t) ∧
    ∃ t, edge ⟨true, false⟩ { sending .b1 with hostIn := [.byte 0x04] } = .next t := ⟨⟨rfl, _, rfl⟩, _, rfl⟩

theorem witness_OutputsFollowRegisters : (sending .b1).phase = .b1 ∧ (sending .b2).phase = .b2 ∧ (sending .b3).phase = .b3 := by
  decide

/-- Both ways `init` changes: a RESET is accepted, a RESET ends. -/
theorem witness_InitChangesOnlyByReset :
    ((byteEdge 0x03).rst = false ∧ Inv idle ∧ ∃ t, clockEdge (byteEdge 0x03) idle = .next t ∧ t.init ≠ idle.init) ∧
    (Inv lastSettle ∧ ∃ t, clockEdge (txEdge false) lastSettle = .next t ∧ t.init ≠ lastSettle.init) :=
  ⟨⟨rfl, idle_inv, _, rfl, by decide⟩, lastSettle_inv, _, rfl, by decide⟩

theorem witness_ChipSelectIsNeverReleased : ((txEdge false).rst = false ∧ Inv lastSettle ∧
    lastSettle.csRs = Config.csActive ∧ ∃ t, clockEdge (txEdge false) lastSettle = .next t) ∧
    (∀ rest, (offering [0x04]).hostIn ≠ .rst :: rest) ∧ Inv (offering [0x04]) ∧
    (offering [0x04]).csRs = Config.csActive ∧ ∃ t, step (offering [0x04]) = .next t :=
  ⟨⟨rfl, lastSettle_inv, rfl, _, rfl⟩, (fun _ h => by cases h), offering_inv _, rfl, _, rfl⟩

/-- The position stays, and it moves. -/
theorem witness_PositionMovesForward : (txEdge true).rst = false ∧ Inv (sending .b1) ∧ (sending .b1).mstate = .run ∧
    (∃ t, clockEdge (txEdge true) (sending .b1) = .next t) ∧ Inv (settling 1) ∧
    ∃ t, clockEdge (txEdge true) (settling 1) = .next t := ⟨rfl, sending_inv, rfl, ⟨_, rfl⟩, settling_inv, _, rfl⟩

theorem witness_CommandsFindReady : Inv idle ∧ idle.cmdReady = true := ⟨idle_inv, rfl⟩

theorem witness_TraceOnlyGrows : Inv idle ∧ (∃ t, clockEdge rstEdge idle = .next t) ∧
    ∃ t, clockEdge (byteEdge 0x03) idle = .next t := ⟨idle_inv, ⟨_, rfl⟩, _, rfl⟩

/-- A wait with two periods left, and one on its last. -/
theorem witness_WaitLastsItsCount : (settling 2).mstate = .run ∧ (settling 2).phase = .wait ∧
    loadedCount (settling 2) = some 72 ∧ (∀ q ∈ [txEdge true], q.rst = false) ∧ (txEdge false).rst = false ∧
    (settling 2).timer.toNat = [txEdge true].length + 1 ∧ (settling 1).timer.toNat = ([] : List Pins).length + 1 := by
  decide

theorem witness_FrameOccupiesItsPeriods : (sending .b1).mstate = .run ∧ (sending .b1).phase = .b1 ∧
    micro (sending .b1).kind (sending .b1).step (sending .b1) = some (.write (sending .b1).ch (sending .b1).val) ∧
    (∀ q ∈ List.replicate 72 (txEdge false), q.rst = false) ∧
    (List.replicate 72 (txEdge false)).length = settle (sending .b1).ch (sending .b1).val := by decide

theorem witness_SettextByteByByte : ([] : List Byte).length ≤ 255 ∧ (List.replicate 255 (0 : Byte)).length ≤ 255 ∧
    idle.mstate = .op := by decide +kernel

/-- Each clause: a command, a frame, the boot, a reset. -/
theorem witness_StepRunsTheDecodedInstruction :
    (Instr.wf (.sendi 0x30) = true ∧ Instr.isCommand (.sendi 0x30) = true ∧ (offering [0x01, 0x30]).mstate = .op ∧
      (offering [0x01, 0x30]).hostIn = (encode (.sendi 0x30)).map .byte ++ []) ∧
    ((∀ rest, (sending .b1).hostIn ≠ .rst :: rest) ∧ (sending .b1).mstate = .run ∧ (sending .b1).phase = .b1) ∧
    ((∀ rest, State.reset.hostIn ≠ .rst :: rest) ∧ State.reset.mstate = .boot) ∧
    State.hostIn { idle with hostIn := [.rst] } = .rst :: [] :=
  ⟨⟨rfl, rfl, rfl, rfl⟩, ⟨(fun _ h => by cases h), rfl, rfl⟩, ⟨(fun _ h => by cases h), rfl⟩, rfl⟩

theorem witness_PlacedWordIsRun : decodeTableWord 16 0x0130 = some (.sendi 0x30) ∧ Instr.isCommand (.sendi 0x30) = true ∧
    decodeTableWord 24 0xF83000 = some (.frameI 0x30) ∧ Instr.isCommand (.frameI 0x30) = false := by decide

theorem witness_StepKeepsInvariant : Inv (offering [0x06, 0x03, 0x0F, 0x01, 0x5A]) ∧
    MachineInv (offering [0x06, 0x03, 0x0F, 0x01, 0x5A]) ∧
    ∃ t, step (offering [0x06, 0x03, 0x0F, 0x01, 0x5A]) = .next t :=
  ⟨offering_inv _, ⟨offering_inv _, by decide, by decide⟩, _, rfl⟩

theorem witness_StepNeverStops : Inv (settling 1) ∧ Inv (offering [0x08]) := ⟨settling_inv, offering_inv _⟩

theorem witness_StepKeepsWireGrammar : (∀ rest, (offering [0x04]).hostIn ≠ .rst :: rest) ∧ Inv (offering [0x04]) ∧
    WireSafe (offering [0x04]) ∧ ∃ t, step (offering [0x04]) = .next t :=
  ⟨(fun _ h => by cases h), offering_inv _, rfl, _, rfl⟩

theorem witness_EdgesReachEveryStep : Inv (offering [0x04]) ∧ .rst ∉ (offering [0x04]).hostIn ∧
    (∃ t, step (offering [0x04]) = .next t) ∧ Fair always := ⟨offering_inv _, by decide, ⟨_, rfl⟩, always_fair⟩

theorem witness_EdgesReachEveryRun : Inv (offering [0x05, 0x01, 0x04]) ∧ .rst ∉ (offering [0x05, 0x01, 0x04]).hostIn ∧
    (∃ t, core.run 2 (offering [0x05, 0x01, 0x04]) = .next t) ∧ Fair always :=
  ⟨offering_inv _, by decide, ⟨_, rfl⟩, always_fair⟩

theorem witness_CommandStreamIsFold : (∀ i ∈ [Instr.setbl 0x01, Instr.clear], i.wf = true ∧ i.isCommand = true) ∧
    (offering [0x05, 0x01, 0x04]).mstate = .op ∧
    (offering [0x05, 0x01, 0x04]).hostIn = ([Instr.setbl 0x01, Instr.clear].flatMap encode).map .byte ++ [] := by decide

theorem witness_CommandLatencies : Instr.wf .clear = true ∧ Instr.isCommand .clear = true ∧ (offering [0x04]).mstate = .op ∧
    (offering [0x04]).hostIn = (encode .clear).map .byte ++ [] ∧ .rst ∉ ([] : List HostItem) := by decide

end Sys2Proof.Tests
end

section
/-! A command whose bytes are all offered runs in one step (R66, R86), and a list of commands one after the
other. -/

namespace Sys2Proof.Machine

/-- R80 to R86: a well-formed command is read back from its encoding, whatever follows, and takes exactly its bytes. -/
theorem decode_encode_append {i : Instr} (hw : i.wf = true) (hc : i.isCommand = true) (bs : List Byte) :
    decode (encode i ++ bs) = .instr i (encode i).length := by
  cases i with
  | settext row col text =>
    have hlen : text.length % 256 = text.length := by
      have : text.length ≤ 255 := by simpa [Instr.wf] using hw
      omega
    obtain ⟨hsize, -⟩ := Laws.EncodedLength.settext row col text hw
    rw [hsize]
    simp [encode, decode, hlen, Instr.length]
  | frameI _ => cases hc
  | frameD _ => cases hc
  | _ => rfl

/-- A command has at least its opcode byte (R86). -/
theorem encode_ne_nil (i : Instr) : encode i ≠ [] := by cases i <;> exact List.cons_ne_nil _ _

/-- No reset is at the head of the host's offers when a command byte is. -/
theorem head_ne_rst_of_bytes {bs : List Byte} (hne : bs ≠ []) (rest r : List HostItem) :
    bs.map HostItem.byte ++ rest ≠ .rst :: r := by
  cases bs with
  | nil => exact absurd rfl hne
  | cons b bs => simp

/-- A command leaves the block in `M_OP`: at the `END` of its script (R178) or after its last operand byte (R177). -/
theorem exec_mstate {i : Instr} {s t : State} (hc : i.isCommand = true) (h : exec i s = .next t) : t.mstate = .op := by
  cases i with
  | frameI _ => cases hc
  | frameD _ => cases hc
  | _ => cases h; rfl

/-- R66, R86: an idle block that is offered the whole encoding of a command runs it in one step and takes its bytes. -/
theorem step_command {i : Instr} {s : State} {rest : List HostItem} (hw : i.wf = true) (hc : i.isCommand = true)
    (hm : s.mstate = .op) (hh : s.hostIn = (encode i).map .byte ++ rest) :
    step s = exec i { s with hostIn := rest } := by
  have hr : ∀ r, s.hostIn ≠ .rst :: r := fun r => hh ▸ head_ne_rst_of_bytes (encode_ne_nil i) rest r
  have hdrop : s.hostIn.drop (encode i).length = rest := by
    rw [hh, List.drop_left' (List.length_map _)]
  rw [step_op hr hm, fetchCommand, hh, offered_bytes, decode_encode_append hw hc, ← hh]
  simp only [hdrop]

/-- Settles O56 by induction on the list: one step runs the first command (`step_command`), which leaves the block in
`M_OP` and neither reads nor changes the host's offers, so the rest of the list runs from its result. -/
theorem commandStreamIsFold : Obligations.CommandStreamIsFold := by
  intro cs rest
  induction cs with
  | nil =>
    intro s _ _ hh
    obtain rfl : s.hostIn = rest := hh
    rfl
  | cons i cs ih =>
    intro s hcs hm hh
    obtain ⟨⟨hw, hc⟩, hcs⟩ := List.forall_mem_cons.1 hcs
    obtain ⟨t, ht⟩ := exec_ex i { s with hostIn := rest }
    have hstep : step s = .next { t with hostIn := (cs.flatMap encode).map .byte ++ rest } := by
      rw [step_command hw hc hm (by simpa using hh)]
      exact exec_host (s := { s with hostIn := rest }) _ ht
    have hidle : t.mstate = .op := exec_mstate hc ht
    have hrun := ih { t with hostIn := (cs.flatMap encode).map .byte ++ rest } hcs hidle rfl
    obtain rfl : t.hostIn = rest := exec_hostIn ht
    rw [execAll, ht, andThen_next, List.length_cons, run_succ_of core _ hstep, hrun]

end Sys2Proof.Machine
end

section
/-! 10_state.md: which instruction writes which register (R22 to R28), the reset values (R40), and the handshakes of the
two ports (R35, R36). -/

namespace Sys2Proof.Machine

/-! ## What an instruction leaves unchanged -/

/-- R22, R25, R27: an instruction that sends leaves the line buffer, the backlight and the SETTEXT latches as they
were. -/
theorem exec_frame_of_sends {i : Instr} {s t : State} (htext : ∀ row col text, i ≠ .settext row col text)
    (hbl : ∀ imm8, i ≠ .setbl imm8) (h : exec i s = .next t) :
    t.lb = s.lb ∧ t.bl = s.bl ∧ t.argn = s.argn ∧ t.aRow = s.aRow ∧ t.aCol = s.aCol ∧ t.aLen = s.aLen ∧
      t.aIdx = s.aIdx := by
  cases i with
  | settext row col text => exact absurd rfl (htext row col text)
  | setbl imm8 => exact absurd rfl (hbl imm8)
  | reset => cases h; simp
  | render =>
    rw [show exec .render s = _ from execRender_eq s] at h
    cases h
    simp
  | _ => cases h; exact ⟨rfl, rfl, rfl, rfl, rfl, rfl, rfl⟩

/-- R22: every instruction but SETTEXT keeps the line buffer. -/
theorem exec_lb {i : Instr} {s t : State} (htext : ∀ row col text, i ≠ .settext row col text)
    (h : exec i s = .next t) : t.lb = s.lb := by
  by_cases hbl : ∃ imm8, i = .setbl imm8
  · obtain ⟨imm8, rfl⟩ := hbl
    cases h
    rfl
  · exact (exec_frame_of_sends htext (not_exists.1 hbl) h).1

/-- R25: every instruction but SETBL keeps the backlight line. -/
theorem exec_bl {i : Instr} {s t : State} (hbl : ∀ imm8, i ≠ .setbl imm8) (h : exec i s = .next t) : t.bl = s.bl := by
  by_cases htext : ∃ row col text, i = .settext row col text
  · obtain ⟨row, col, text, rfl⟩ := htext
    cases h
    rfl
  · obtain ⟨-, hsame, -⟩ := exec_frame_of_sends (by simpa using htext) hbl h
    exact hsame

/-- R23, R24, R133: every instruction but RESET keeps `init` and the chip-select line. -/
theorem exec_init_csRs {i : Instr} {s t : State} (hi : i ≠ .reset) (h : exec i s = .next t) :
    t.init = s.init ∧ t.csRs = s.csRs := by
  cases i with
  | reset => exact absurd rfl hi
  | render =>
    rw [show exec .render s = _ from execRender_eq s] at h
    cases h
    simp
  | _ => cases h; exact ⟨rfl, rfl⟩

/-- R27: of the instructions that send only SENDI and SENDD have an operand, and the others keep the decoder's `op`. -/
theorem exec_op_of_sends {i : Instr} {s t : State} (htext : ∀ row col text, i ≠ .settext row col text)
    (hbl : ∀ imm8, i ≠ .setbl imm8) (hsendi : ∀ v, i ≠ .sendi v) (hsendd : ∀ v, i ≠ .sendd v)
    (h : exec i s = .next t) : t.op = s.op := by
  cases i with
  | sendi v => exact absurd rfl (hsendi v)
  | sendd v => exact absurd rfl (hsendd v)
  | settext row col text => exact absurd rfl (htext row col text)
  | setbl imm8 => exact absurd rfl (hbl imm8)
  | reset => cases h; simp
  | render =>
    rw [show exec .render s = _ from execRender_eq s] at h
    cases h
    simp
  | _ => cases h; rfl

/-- R110: a bare frame does not move the position (log 3). -/
theorem exec_position_of_frame {i : Instr} {s t : State} (hc : i.isCommand = false) (h : exec i s = .next t) :
    t.mstate = s.mstate ∧ t.kind = s.kind ∧ t.step = s.step ∧ t.phase = s.phase := by
  cases i with
  | frameI v => cases h; exact ⟨rfl, rfl, rfl, rfl⟩
  | frameD v => cases h; exact ⟨rfl, rfl, rfl, rfl⟩
  | _ => cases hc

/-- Settles O18: the kept registers are read off `exec_frame_of_sends`; RESET alone writes `init` and `cs_rs`, SENDI and
SENDD alone write `op`, and a bare frame does not move the position. -/
theorem sendingCommandsFrame : Obligations.SendingCommandsFrame := by
  intro i s t htext hbl h
  obtain ⟨hlb, hblKept, hargn, hrow, hcol, hlen, hidx⟩ := exec_frame_of_sends htext hbl h
  exact ⟨fun a => congrArg (·.read a) hlb, hlb, hblKept, exec_hostIn h, hargn, hrow, hcol, hlen, hidx,
    fun hreset => exec_init_csRs hreset h, fun hsendi hsendd => exec_op_of_sends htext hbl hsendi hsendd h,
    fun hc => exec_position_of_frame hc h⟩

/-- Settles O21: an instruction other than the one named keeps the register (`exec_lb`, `exec_bl`, `exec_init_csRs`). -/
theorem whoWritesWhat : Obligations.WhoWritesWhat := by
  intro i s t h
  refine ⟨fun hne => ?_, fun hne => ?_, fun hne => ?_⟩ <;> by_contra hi
  · exact hne (exec_lb (by simpa using hi) h)
  · exact hne (exec_bl (not_exists.1 hi) h)
  · obtain ⟨hinit, hcs⟩ := exec_init_csRs hi h
    exact hne.elim (absurd hinit) (absurd hcs)

/-! ## What an edge and a step can do without hardware reset -/

theorem txValid_iff (s : State) : s.txValid = true ↔ s.phase = .b1 ∨ s.phase = .b2 ∨ s.phase = .b3 := by
  simp [State.txValid, or_assoc]

/-- R36, R180 to R182: while a byte is offered an edge without `tx_ready` changes nothing, and one with it emits the
byte and moves on to another phase. -/
theorem runEdge_offering {s : State} (hv : s.txValid = true) : ∃ p n, ∀ r, runEdge r s =
    .next (if r then { s with phase := p, timer := n, trace := s.trace ++ [.tx s.txByte] } else s) := by
  rcases (txValid_iff s).1 hv with hp | hp | hp
  · exact ⟨.b2, s.timer, fun r => by rw [runEdge_b1 hp, State.txByte, hp]⟩
  · exact ⟨.b3, s.timer, fun r => by rw [runEdge_b2 hp, State.txByte, hp]⟩
  · exact ⟨.wait, _, fun r => by rw [runEdge_b3 hp, State.txByte, hp]⟩

/-- Everything `run_edge` can do: within a micro-operation it moves only the phase and the timer, and at the last edge of
a wait it starts the next micro-operation (R180 to R184). -/
theorem runEdge_cases {r : Bool} {s t : State} (hi : Inv s) (hm : s.mstate = .run) (h : runEdge r s = .next t) :
    (∃ p n es, t = { s with phase := p, timer := n, trace := s.trace ++ es }) ∨
    (s.phase = .wait ∧ s.timer = 1 ∧ ∃ n, loadedCount s = some n ∧ startNext (s.emit [.wait n]) = .next t) := by
  by_cases hv : s.txValid = true
  · obtain ⟨p, n, he⟩ := runEdge_offering hv
    rw [he] at h
    cases r with
    | false => cases h; exact .inl ⟨s.phase, s.timer, [], by simp⟩
    | true => cases h; exact .inl ⟨p, n, _, rfl⟩
  · have hidle : s.phase ≠ .idle := hi.phase.2 hm
    have hp : s.phase = .wait := by
      cases hp : s.phase <;> simp_all [txValid_iff]
    by_cases ht : s.timer = 1
    · obtain ⟨n, hn⟩ : ∃ n, loadedCount s = some n := by
        rcases hi.loadedCount hm with hl | ⟨n, -, hl⟩ <;> exact ⟨_, hl⟩
      rw [runEdge_wait_last hp ht hn] at h
      exact .inr ⟨hp, ht, n, hn, h⟩
    · rw [runEdge_wait_more hp ht] at h
      cases h
      exact .inl ⟨s.phase, s.timer - 1, [], by simp⟩

/-- Everything a clock edge without hardware reset can do (R173). -/
theorem clockEdge_cases {p : Pins} {s t : State} (hp : p.rst = false) (h : clockEdge p s = .next t) :
    (s.mstate = .boot ∧ acceptReset s = .next t) ∨
    (s.mstate = .op ∧ p.cmdValid = true ∧ decodeOpcode p.cmdByte s = .next t) ∨
    (s.mstate = .arg ∧ p.cmdValid = true ∧ takeOperand p.cmdByte s = .next t) ∨
    (s.mstate = .run ∧ runEdge p.txReady s = .next t) ∨
    (s.cmdReady = true ∧ p.cmdValid = false ∧ t = s) := by
  rcases hm : s.mstate with _ | _ | _ | _
  · rw [clockEdge_boot hp hm] at h
    exact .inl ⟨rfl, h⟩
  · rw [clockEdge_op hp hm] at h
    split at h
    · exact .inr (.inl ⟨rfl, ‹p.cmdValid = true›, h⟩)
    · cases h
      exact .inr (.inr (.inr (.inr ⟨by simp [State.cmdReady, hm], Bool.eq_false_of_not_eq_true ‹_›, rfl⟩)))
  · rw [clockEdge_arg hp hm] at h
    split at h
    · exact .inr (.inr (.inl ⟨rfl, ‹p.cmdValid = true›, h⟩))
    · cases h
      exact .inr (.inr (.inr (.inr ⟨by simp [State.cmdReady, hm], Bool.eq_false_of_not_eq_true ‹_›, rfl⟩)))
  · rw [clockEdge_run hp hm] at h
    exact .inr (.inr (.inr (.inl ⟨rfl, h⟩)))

/-- Everything an idle block can do in a step: a whole command, the opcode byte of one, or at most a byte passed over
(log 5, log 24). -/
theorem fetchCommand_cases {s t : State} (h : fetchCommand s = .next t) :
    (∃ i items, exec i { s with hostIn := items } = .next t) ∨
    (∃ b rest, decodeOpcode b { s with hostIn := rest } = .next t) ∨
    ∃ items, t = { s with hostIn := items } := by
  unfold fetchCommand at h
  split at h
  · exact .inl ⟨_, _, h⟩
  · cases h
    exact .inr (.inr ⟨_, rfl⟩)
  · split at h
    · exact .inr (.inl ⟨_, _, h⟩)
    · cases h
      exact .inr (.inr ⟨s.hostIn, rfl⟩)
    · cases h
      exact .inr (.inr ⟨s.hostIn, rfl⟩)

/-- Everything a collecting block can do in a step: take an operand byte, or wait for one (R177). -/
theorem fetchOperand_cases {s t : State} (h : fetchOperand s = .next t) :
    (∃ b rest, takeOperand b { s with hostIn := rest } = .next t) ∨ t = s := by
  unfold fetchOperand at h
  split at h
  · exact .inl ⟨_, _, h⟩
  · cases h
    exact .inr rfl
  · cases h
    exact .inr rfl

/-- Everything a step without an offered reset can do, position by position (log 1). -/
theorem step_cases {s t : State} (hr : ∀ rest, s.hostIn ≠ .rst :: rest) (h : step s = .next t) :
    (s.mstate = .boot ∧ exec .reset s = .next t) ∨ (s.mstate = .op ∧ fetchCommand s = .next t) ∨
    (s.mstate = .arg ∧ fetchOperand s = .next t) ∨ (s.mstate = .run ∧ finishMicro s = .next t) := by
  rw [advance_of_no_reset hr, advancePosition] at h
  split at h
  · exact .inl ⟨‹s.mstate = .boot›, h⟩
  · exact .inr (.inl ⟨‹s.mstate = .op›, h⟩)
  · exact .inr (.inr (.inl ⟨‹s.mstate = .arg›, h⟩))
  · exact .inr (.inr (.inr ⟨‹s.mstate = .run›, h⟩))

/-! ## The position (R28) -/

/-- The next micro-operation of a running script is the next position of the same script, and the line stays, whatever
the wait that ends left in the timer and in the trace (R178). -/
theorem Inv.startNext_keeps {s t : State} {n : BitVec Config.timerWidth} {es : List Event} (hi : Inv s)
    (hm : s.mstate = .run) (h : startNext { s with timer := n, trace := es } = .next t) :
    t.csRs = s.csRs ∧ t.kind = s.kind ∧ t.step.toNat = s.step.toNat + 1 := by
  obtain ⟨o, ho, hne⟩ := hi.micro hm
  obtain ⟨hcs, hkind, hstep, -, -⟩ :=
    startNext_stay (s := { s with timer := n, trace := es }) ((micro_congr _ _ rfl rfl rfl).trans ho) hne h
  exact ⟨hcs, hkind, hstep⟩

/-- Settles O43: within a micro-operation an edge keeps `kind` and `step`, and at the last edge of a wait `startNext`
moves `step` on by one in the same script. -/
theorem positionMovesForward : Obligations.PositionMovesForward := by
  intro p s t hp hi hm h
  rw [clockEdge_run hp hm] at h
  rcases runEdge_cases hi hm h with ⟨_, _, _, rfl⟩ | ⟨hwait, htimer, _, -, hnext⟩
  · exact ⟨rfl, .inl rfl⟩
  · obtain ⟨-, hkind, hstep⟩ := hi.startNext_keeps hm hnext
    exact ⟨hkind, .inr ⟨hstep, hwait, htimer⟩⟩

/-! ## The chip-select line (R24) -/

theorem acceptReset_csRs {s t : State} (h : acceptReset s = .next t) : t.csRs = Config.csActive := by
  rw [acceptReset_eq] at h
  cases h
  rfl

/-- An opcode byte leaves the line as it was, but for RESET, which asserts it (R131, R175). -/
theorem decodeOpcode_csRs {b : Byte} {s t : State} (h : decodeOpcode b s = .next t) :
    t.csRs = s.csRs ∨ t.csRs = Config.csActive := by
  rcases decodeOpcode_cases b s with ⟨_, _, -, -, he⟩ | ⟨-, he⟩ | ⟨-, he⟩ | ⟨-, he⟩ | he <;> rw [he] at h
  case inr.inl => exact .inr (acceptReset_csRs h)
  all_goals cases h; exact .inl rfl

/-- An operand byte does not touch the line (R177). -/
theorem takeOperand_csRs {b : Byte} {s t : State} (ha : ArgInv s) (hm : s.mstate = .arg)
    (h : takeOperand b s = .next t) : t.csRs = s.csRs := by
  rcases takeOperand_cases ha hm b with ⟨_, he⟩ | he | ⟨-, he⟩ <;> rw [he] at h
  · cases h; rfl
  · cases h; rfl
  · rcases takeSettext_cases b s with ⟨_, _, _, _, _, _, -, -, he'⟩ | ⟨_, _, _, -, he'⟩ <;>
      rw [he'] at h <;> cases h <;> rfl

/-- An edge of a running script does not touch the line. -/
theorem runEdge_csRs {r : Bool} {s t : State} (hi : Inv s) (hm : s.mstate = .run) (h : runEdge r s = .next t) :
    t.csRs = s.csRs := by
  rcases runEdge_cases hi hm h with ⟨_, _, _, rfl⟩ | ⟨-, -, _, -, hnext⟩
  · rfl
  · exact (hi.startNext_keeps hm hnext).1

/-- Finishing a micro-operation does not touch the line. -/
theorem finishMicro_csRs {s t : State} (hi : Inv s) (hm : s.mstate = .run) (h : finishMicro s = .next t) :
    t.csRs = s.csRs := by
  rw [finishMicro_eq hi hm] at h
  exact (hi.startNext_keeps hm h).1

/-- An instruction leaves the line as it was, but for RESET, which asserts it (R24, R131). -/
theorem exec_csRs {i : Instr} {s t : State} (h : exec i s = .next t) :
    t.csRs = s.csRs ∨ t.csRs = Config.csActive := by
  by_cases hi : i = .reset
  · subst hi
    cases h
    exact .inr (by simp)
  · exact .inl (exec_init_csRs hi h).2

/-- A step of an idle block leaves the line as it was or asserts it. -/
theorem fetchCommand_csRs {s t : State} (h : fetchCommand s = .next t) :
    t.csRs = s.csRs ∨ t.csRs = Config.csActive := by
  rcases fetchCommand_cases h with ⟨_, items, h⟩ | ⟨_, rest, h⟩ | ⟨_, rfl⟩
  · exact exec_csRs (s := { s with hostIn := items }) h
  · exact decodeOpcode_csRs (s := { s with hostIn := rest }) h
  · exact .inl rfl

/-- A step of a collecting block does not touch the line. -/
theorem fetchOperand_csRs {s t : State} (ha : ArgInv s) (hm : s.mstate = .arg) (h : fetchOperand s = .next t) :
    t.csRs = s.csRs := by
  rcases fetchOperand_cases h with ⟨_, rest, h⟩ | rfl
  · exact takeOperand_csRs (s := { s with hostIn := rest }) ha hm h
  · rfl

/-- Settles O42: whatever an edge or a step does without hardware reset, it leaves the line as it was or asserts it. -/
theorem chipSelectIsNeverReleased : Obligations.ChipSelectIsNeverReleased := by
  refine ⟨fun p s t hp hi hcs h => ?_, fun s t hr hi hcs h => ?_⟩
  · rcases clockEdge_cases hp h with ⟨-, h⟩ | ⟨-, -, h⟩ | ⟨hm, -, h⟩ | ⟨hm, h⟩ | ⟨-, -, rfl⟩
    · exact acceptReset_csRs h
    · exact (decodeOpcode_csRs h).elim (·.trans hcs) id
    · exact (takeOperand_csRs hi.arg hm h).trans hcs
    · exact (runEdge_csRs hi hm h).trans hcs
    · exact hcs
  · rcases step_cases hr h with ⟨-, h⟩ | ⟨-, h⟩ | ⟨hm, h⟩ | ⟨hm, h⟩
    · exact (exec_csRs h).elim (·.trans hcs) id
    · exact (fetchCommand_csRs h).elim (·.trans hcs) id
    · exact (fetchOperand_csRs hi.arg hm h).trans hcs
    · exact (finishMicro_csRs hi hm h).trans hcs

/-! ## The two ports (R35, R36) -/

/-- Settles O39: the edge itself leaves the offers alone (`clockEdge_hostIn`), so what is gone is what `itemTaken`
says. -/
theorem commandPortHandshake : Obligations.CommandPortHandshake := by
  intro e b rest s t hh h
  have htaken : itemTaken e s = (e.offer && s.cmdReady) := by simp only [itemTaken, hh]
  calc t.hostIn = if itemTaken e s then s.hostIn.tail else s.hostIn := clockEdge_hostIn h
    _ = if e.offer = true ∧ s.cmdReady = true then rest else s.hostIn := by
      simp only [htaken, hh, List.tail_cons, Bool.and_eq_true]

/-- Settles O38: in `M_RUN` an edge is `run_edge`, which while a byte is offered waits for `tx_ready` and then emits the
byte (`runEdge_offering`). -/
theorem transportHandshake : Obligations.TransportHandshake := by
  intro p s hp hm
  refine ⟨txValid_iff s, fun hv => ?_⟩
  obtain ⟨ph, n, he⟩ := runEdge_offering hv
  rw [clockEdge_run hp hm, he]
  exact ⟨fun hready => by rw [hready]; rfl, fun hready => by rw [hready]; exact ⟨_, rfl, rfl⟩⟩

/-! ## Hardware reset (R40) -/

/-- Settles O30: no cell is listed, so each reads `FILL`; the registers hold the values of the table. -/
theorem resetStateValues : Obligations.ResetStateValues := ⟨fun _ => rfl, by decide⟩

/-- Settles O33: the reset state is what hardware reset leaves of itself (`hardReset_inv`), at step 0 of the RESET
script, offering nothing, with an empty trace. -/
theorem resetStateIsSafe : Obligations.ResetStateIsSafe :=
  have hinv : Inv State.reset := hardReset_inv State.reset
  ⟨hinv, ⟨hinv, by decide, by decide⟩, rfl⟩

end Sys2Proof.Machine
end

section
/-! 20_memory.md: the grammar of the wire (R62, R66 (b)) through every edge and every step. A list of events that leads
the transport from between two frames to between two frames is made of whole frames, each with its settle. -/

namespace Sys2Proof.Machine

/-! ## Events between frames -/

/-- Whole frames followed by whole frames. -/
theorem Wire.between_append {a b : List Event} (ha : Wire.between.after a = some .between)
    (hb : Wire.between.after b = some .between) : Wire.between.after (a ++ b) = some .between := by
  rw [Wire.after_append, ha]
  exact hb

/-- Standing between frames, a state meets the grammar when its trace is made of whole frames. -/
theorem wireSafe_of_between {s : State} (hw : s.wire = .between) (ht : Wire.between.after s.trace = some .between) :
    WireSafe s := ht.trans (congrArg some hw.symm)

/-- The trace of a state that meets the grammar leaves the transport where the phase says. -/
theorem WireSafe.after_trace {s : State} {w : Wire} (h : WireSafe s) (hw : s.wire = w) :
    Wire.between.after s.trace = some w := h.trans (congrArg some hw)

/-- Before the first byte of a frame the transport stands between frames (R180). -/
theorem wire_b1 {s : State} (h : s.phase = .b1) : s.wire = .between := by simp [State.wire, h]

/-- After the third byte of a frame its settle is owed (R182). -/
theorem wire_settling {s : State} (hp : s.phase = .wait) (hmic : micro s.kind s.step s = some (.write s.ch s.val)) :
    s.wire = .owesSettle s.ch s.val := by simp [State.wire, hp, hmic]

/-- R189 (a): outside `M_RUN` no frame is in progress. -/
theorem Inv.idle {s : State} (hi : Inv s) (hm : s.mstate ≠ .run) : s.phase = .idle :=
  not_not.1 (mt hi.phase.1 hm)

/-- Outside `M_RUN` the trace is made of whole frames. -/
theorem WireSafe.between {s : State} (hw : WireSafe s) (hp : s.phase = .idle) :
    Wire.between.after s.trace = some .between := hw.after_trace (wire_between hp)

/-- In a wait the events owed are the one `WAIT` of the loaded count. -/
theorem pending_wait {s : State} {n : Nat} (hp : s.phase = .wait) (hl : loadedCount s = some n) :
    pending s = [.wait n] := by simp [pending, hp, hl]

/-- R180 to R184: the events the micro-operation in progress owes bring the transport back between frames. In a wait
they are the settle of the frame of the latches, or an extra wait, before which no frame is in progress. -/
theorem Inv.wire_pending {s : State} (hi : Inv s) (hm : s.mstate = .run) :
    s.wire.after (pending s) = some .between := by
  cases hp : s.phase with
  | idle => exact absurd hp (hi.phase.2 hm)
  | b1 =>
    simp only [wire_b1 hp, pending, hp]
    exact Wire.after_frame s.ch s.val
  | b2 =>
    simp only [State.wire, pending, hp, frameEvents_eq, List.drop_succ_cons, List.drop_zero, Wire.after, Wire.next_high,
      Wire.next_low, Wire.next_settle]
  | b3 =>
    simp only [State.wire, pending, hp, frameEvents_eq, List.drop_succ_cons, List.drop_zero, Wire.after, Wire.next_low,
      Wire.next_settle]
  | wait =>
    rcases hi.position hm with hmic | ⟨-, -, n, -, hmic⟩
    · rw [wire_settling hp hmic, pending_wait (n := settle s.ch s.val) hp (by simp [Machine.loadedCount, hmic])]
      simp only [Wire.after, Wire.next_settle]
    · rw [pending_wait (n := n) hp (by simp [Machine.loadedCount, hmic])]
      simp only [State.wire, hp, hmic, Wire.after, Wire.next]

/-- With the events it owes, the trace of a running block is made of whole frames. -/
theorem WireSafe.after_pending {s : State} (hw : WireSafe s) (hi : Inv s) (hm : s.mstate = .run) :
    Wire.between.after (s.trace ++ pending s) = some .between := by
  rw [Wire.after_append, hw]
  exact hi.wire_pending hm

/-- The end of the micro-operation in progress, whatever is left in the timer, keeps the grammar of the wire. -/
theorem Inv.startNext_wireSafe {s t : State} {n : BitVec Config.timerWidth} (hi : Inv s) (hm : s.mstate = .run)
    (hw : WireSafe s) (h : startNext { s with timer := n, trace := s.trace ++ pending s } = .next t) : WireSafe t := by
  obtain ⟨o, ho, hne⟩ := hi.micro hm
  exact startNext_wire (s := { s with timer := n, trace := s.trace ++ pending s })
    ((micro_congr _ _ rfl rfl rfl).trans ho) hne (hw.after_pending hi hm) h

/-! ## What one clock edge puts on the wire -/

/-- A RESET sequence begins between frames, with the `CS` event (R176). -/
theorem acceptReset_wireSafe {s t : State} (hw : Wire.between.after s.trace = some .between)
    (h : acceptReset s = .next t) : WireSafe t := by
  rw [acceptReset_eq] at h
  cases h
  exact wireSafe_of_between (wire_b1 rfl) (after_snoc hw rfl)

/-- An opcode byte emits nothing, but for the `CS` of RESET (R175). -/
theorem decodeOpcode_wireSafe {b : Byte} {s t : State} (hp : s.phase = .idle)
    (hw : Wire.between.after s.trace = some .between) (h : decodeOpcode b s = .next t) : WireSafe t := by
  rcases decodeOpcode_cases b s with ⟨_, _, -, -, he⟩ | ⟨-, he⟩ | ⟨-, he⟩ | ⟨-, he⟩ | he <;> rw [he] at h
  · cases h; exact wireSafe_of_between (wire_between hp) hw
  · exact acceptReset_wireSafe hw h
  · cases h; exact wireSafe_of_between (wire_b1 rfl) hw
  · cases h; exact wireSafe_of_between (wire_b1 rfl) hw
  · cases h; exact wireSafe_of_between (wire_between hp) hw

/-- An operand byte emits no byte: at most the `BL` of SETBL and a `RET` (R177). -/
theorem takeOperand_wireSafe {b : Byte} {s t : State} (hi : Inv s) (hm : s.mstate = .arg) (hw : WireSafe s)
    (h : takeOperand b s = .next t) : WireSafe t := by
  have hp : s.phase = .idle := hi.idle (by simp [hm])
  have hb := hw.between hp
  rcases takeOperand_cases hi.arg hm b with ⟨_, he⟩ | he | ⟨-, he⟩ <;> rw [he] at h
  · cases h; exact wireSafe_of_between (wire_b1 rfl) hb
  · cases h; exact wireSafe_of_between (wire_between hp) (Wire.between_append hb rfl)
  · rcases takeSettext_cases b s with ⟨_, _, _, _, _, _, -, -, he'⟩ | ⟨_, _, _, -, he'⟩ <;> rw [he'] at h <;> cases h
    · exact wireSafe_of_between (wire_between hp) hb
    · exact wireSafe_of_between (wire_between hp) (after_snoc hb rfl)

/-- An edge of a running script: no event, the next byte of the frame, or the `WAIT` that ends the micro-operation
(R180 to R184). -/
theorem runEdge_wireSafe {r : Bool} {s t : State} (hi : Inv s) (hm : s.mstate = .run) (hw : WireSafe s)
    (h : runEdge r s = .next t) : WireSafe t := by
  cases hp : s.phase with
  | idle => exact absurd hp (hi.phase.2 hm)
  | b1 =>
    rw [runEdge_b1 hp] at h
    cases h
    split
    · exact after_snoc (hw.after_trace (wire_b1 hp)) (Wire.next_sync s.ch)
    · exact hw
  | b2 =>
    have hw2 : s.wire = .afterSync s.ch := by simp [State.wire, hp]
    rw [runEdge_b2 hp] at h
    cases h
    split
    · exact after_snoc (hw.after_trace hw2) (Wire.next_high s.ch s.val)
    · exact hw
  | b3 =>
    have hw3 : s.wire = .afterHigh s.ch (highByte s.val) := by simp [State.wire, hp]
    have hmic := hi.latched hm (by simp [hp])
    rw [runEdge_b3 hp] at h
    cases h
    split
    · rw [WireSafe, wire_settling rfl ?_]
      · exact after_snoc (hw.after_trace hw3) (Wire.next_low s.ch s.val)
      · exact micro_latched hmic rfl rfl rfl
    · exact hw
  | wait =>
    by_cases ht : s.timer = 1
    · obtain ⟨n, hn⟩ : ∃ n, loadedCount s = some n := by
        rcases hi.loadedCount hm with hl | ⟨n, -, hl⟩ <;> exact ⟨_, hl⟩
      rw [runEdge_wait_last hp ht hn, ← pending_wait hp hn] at h
      exact hi.startNext_wireSafe hm hw (n := s.timer) h
    · rw [runEdge_wait_more hp ht] at h
      cases h
      exact hw

/-- Settles O36: outside `M_RUN` the transport stands between frames and an edge emits no byte; in `M_RUN` each edge
moves the transport and the phase together (`runEdge_wireSafe`). -/
theorem clockEdgeKeepsWireGrammar : Obligations.ClockEdgeKeepsWireGrammar := by
  intro p s t hp hi hw h
  rcases clockEdge_cases hp h with ⟨hm, h⟩ | ⟨hm, -, h⟩ | ⟨hm, -, h⟩ | ⟨hm, h⟩ | ⟨-, -, rfl⟩
  · exact acceptReset_wireSafe (hw.between (hi.idle (by simp [hm]))) h
  · have hidle : s.phase = .idle := hi.idle (by simp [hm])
    exact decodeOpcode_wireSafe hidle (hw.between hidle) h
  · exact takeOperand_wireSafe hi hm hw h
  · exact runEdge_wireSafe hi hm hw h
  · exact hw

/-! ## What one step puts on the wire -/

/-- R62, R66 (b), R110: every instruction adds whole frames, each with its settle, and events that belong to no
frame. -/
theorem exec_between {i : Instr} {s t : State} (hw : Wire.between.after s.trace = some .between)
    (h : exec i s = .next t) : Wire.between.after t.trace = some .between := by
  have hframe (c : Bit) (v : Byte) : Wire.between.after (s.write c v).trace = some .between :=
    Wire.between_append hw (Wire.after_frame c v)
  cases i with
  | sendi v => cases h; exact after_snoc (hframe 0 v) rfl
  | sendd v => cases h; exact after_snoc (hframe 1 v) rfl
  | reset =>
    cases h
    rw [State.complete_trace, resetFrames_trace]
    exact after_snoc (Wire.between_append (after_snoc hw rfl) rfl) rfl
  | clear =>
    cases h
    exact after_snoc (Wire.between_append (hframe 0 insClearDisplay) (Wire.after_frame 0 insHome)) rfl
  | setbl imm8 => cases h; exact Wire.between_append hw rfl
  | settext row col text => cases h; exact after_snoc hw rfl
  | render =>
    rw [show exec .render s = _ from execRender_eq s] at h
    cases h
    rw [State.complete_trace, State.writeAll_trace]
    exact after_snoc (Wire.between_append hw (Wire.after_frames 1 (renderCells s.lb))) rfl
  | frameI v => cases h; exact hframe 0 v
  | frameD v => cases h; exact hframe 1 v

/-- An instruction run by an idle block leaves it idle: a command ends its script (R178), a bare frame does not move
the position (R110). -/
theorem exec_keeps_idle {i : Instr} {s t : State} (hp : s.phase = .idle) (h : exec i s = .next t) : t.phase = .idle := by
  cases hc : i.isCommand with
  | true => exact exec_phase hp hc h
  | false =>
    obtain ⟨-, -, -, hphase⟩ := exec_position_of_frame hc h
    exact hphase.trans hp

/-- An instruction run between frames ends between frames. -/
theorem exec_wireSafe {i : Instr} {s t : State} (hp : s.phase = .idle)
    (hw : Wire.between.after s.trace = some .between) (h : exec i s = .next t) : WireSafe t :=
  wireSafe_of_between (wire_between (exec_keeps_idle hp h)) (exec_between hw h)

/-- The grammar of the wire does not depend on the host's offers. -/
theorem WireSafe.host {s : State} (items : List HostItem) (hw : WireSafe s) : WireSafe { s with hostIn := items } := hw

/-- A step of an idle block: a whole command, the opcode byte of one, or nothing on the wire. -/
theorem fetchCommand_wireSafe {s t : State} (hp : s.phase = .idle) (hw : WireSafe s) (h : fetchCommand s = .next t) :
    WireSafe t := by
  rcases fetchCommand_cases h with ⟨_, items, h⟩ | ⟨_, rest, h⟩ | ⟨items, rfl⟩
  · exact exec_wireSafe (s := { s with hostIn := items }) hp (hw.between hp) h
  · exact decodeOpcode_wireSafe (s := { s with hostIn := rest }) hp (hw.between hp) h
  · exact hw.host items

/-- A step of a collecting block: an operand byte, or nothing. -/
theorem fetchOperand_wireSafe {s t : State} (hi : Inv s) (hm : s.mstate = .arg) (hw : WireSafe s)
    (h : fetchOperand s = .next t) : WireSafe t := by
  rcases fetchOperand_cases h with ⟨_, rest, h⟩ | rfl
  · exact takeOperand_wireSafe (inv_host rest hi) hm (hw.host rest) h
  · exact hw

/-- Settles O53: an idle or booting block runs a whole instruction between frames (`exec_between`), and a running one
first emits what the micro-operation in progress owes (`Inv.wire_pending`). -/
theorem stepKeepsWireGrammar : Obligations.StepKeepsWireGrammar := by
  intro s t hr hi hw h
  rcases step_cases hr h with ⟨hm, h⟩ | ⟨hm, h⟩ | ⟨hm, h⟩ | ⟨hm, h⟩
  · have hidle : s.phase = .idle := hi.idle (by simp [hm])
    exact exec_wireSafe hidle (hw.between hidle) h
  · exact fetchCommand_wireSafe (hi.idle (by simp [hm])) hw h
  · exact fetchOperand_wireSafe hi hm hw h
  · rw [finishMicro_eq hi hm] at h
    exact hi.startNext_wireSafe hm hw h

end Sys2Proof.Machine
end

section
/-! 20_memory.md: the store of SETTEXT (R57, R58, R64) and the order in which RENDER reads the line buffer (R56). -/

namespace Sys2Proof.Machine

/-! ## SETTEXT at once -/

/-- R146: SETTEXT answers a next state; its trace is `RET`, it stores into the line buffer, and no other architectural
register changes. -/
theorem exec_settext (row col : Byte) (text : List Byte) (s : State) : ∃ t, exec (.settext row col text) s = .next t ∧
    t.trace = s.trace ++ [.ret] ∧ t.lb = settextMemory row col text s.lb ∧ t.init = s.init ∧ t.csRs = s.csRs ∧
    t.bl = s.bl := ⟨_, rfl, rfl, rfl, rfl, rfl, rfl⟩

/-- Settles O7: out of range the store is the identity (`settextMemory_out`). -/
theorem settextOutOfRangeIsNoOp : Obligations.SettextOutOfRangeIsNoOp := by
  intro row col text s hout
  obtain ⟨t, hexec, htrace, hlb, hinit, hcs, hbl⟩ := exec_settext row col text s
  exact ⟨t, hexec, htrace, hlb.trans (settextMemory_out (by omega) text s.lb), hinit, hcs, hbl⟩

/-- The cells of a row from a column to the last one of the row (R20, R50). -/
def rowTail (row col : Nat) : List Nat := (List.range (Config.cols - col)).map fun i => cellAddr row (col + i)

theorem mem_rowTail {row col a : Nat} : a ∈ rowTail row col ↔ ∃ i, col + i < Config.cols ∧ a = cellAddr row (col + i) := by
  simp only [rowTail, List.mem_map, List.mem_range, Nat.lt_sub_iff_add_lt', eq_comm (a := a)]

/-- The addresses at which two memories differ are no more than the cells that hold all the differences. -/
theorem changed_length_le {m m' : Memory} {cells : List Nat} (h : ∀ a, a ∉ cells → m'.read a = m.read a) (n : Nat) :
    ((List.range n).filter fun a => decide (m'.read a ≠ m.read a)).length ≤ cells.length := by
  have hnodup : ((List.range n).filter fun a => decide (m'.read a ≠ m.read a)).Nodup := List.nodup_range.filter _
  refine (hnodup.subperm fun a ha => ?_).length_le
  by_contra hcell
  simp [h a hcell] at ha

/-- Settles O8: the store leaves each character that fits in its cell (`read_putText_cell`) and touches no other cell
(`read_putText_other`), so what changes lies in the tail of the row from column `col`, which has `16 - col` cells. -/
theorem settextTruncatesAtRowEnd : Obligations.SettextTruncatesAtRowEnd := by
  intro row col text s hm hrow hcol
  have h16 : Config.cols = 16 := rfl
  obtain ⟨t, hexec, htrace, hlb, -⟩ := exec_settext row col text s
  rw [settextMemory_in ⟨hrow, hcol⟩] at hlb
  refine ⟨t, hexec, htrace, fun i hi hc => ?_, fun a ha => ?_, ?_⟩
  · rw [State.cell, hlb]
    exact Memory.read_putText_cell (by omega) col.toNat text hm i hi (by omega)
  · rw [hlb]
    exact Memory.read_putText_other _ _ text _ a fun i hi hc => ha i hi (by omega)
  · have htail : ∀ a, a ∉ rowTail row.toNat col.toNat → t.lb.read a = s.lb.read a := fun a ha => by
      rw [hlb]
      exact Memory.read_putText_other _ _ text _ a fun i _ hc hcell => ha (mem_rowTail.2 ⟨i, hc, hcell⟩)
    simpa [rowTail, h16] using changed_length_le htail 64

/-! ## SETTEXT byte by byte -/

/-- A block that has taken some bytes stands, before the rest of them, in a state from which it takes the rest. -/
theorem Taking.split {as bs : List Byte} {s t : State} (h : Taking (as ++ bs) s t) :
    ∃ u, Taking as s u ∧ Taking bs u t := by
  induction as generalizing s with
  | nil => exact ⟨s, .nil s, h⟩
  | cons a as ih =>
    cases h with
    | op hm hd ht =>
      obtain ⟨u, hu, hrest⟩ := ih ht
      exact ⟨u, .op hm hd hu, hrest⟩
    | arg hm hd ht =>
      obtain ⟨u, hu, hrest⟩ := ih ht
      exact ⟨u, .arg hm hd hu, hrest⟩

/-- Before each byte it takes the block is in `M_OP` or `M_ARG`, so it is not busy unless it ends so (R38, R64). -/
theorem Taking.not_busy {bs : List Byte} {s t : State} (h : Taking bs s t) (ht : t.busy = false) : s.busy = false := by
  cases h with
  | nil => exact ht
  | op hm => simp [State.busy, hm]
  | arg hm => simp [State.busy, hm]

/-- R177: the opcode, the row and the column of a SETTEXT are latched, and then its length byte is due. -/
theorem settextHead_taking {s t : State} (hm : s.mstate = .op) (row col : Byte) {bs : List Byte}
    (h : Taking bs { s with op := 6, argn := 2, aRow := row, aCol := col, mstate := .arg } t) :
    Taking (0x06 :: row :: col :: bs) s t :=
  .op hm rfl (.arg rfl rfl (.arg rfl rfl h))

/-- The length byte of a text is 0 only for the empty text (R85). -/
theorem lengthByte_ne_zero {text : List Byte} (hlen : text.length ≤ 255) (hne : text ≠ []) :
    BitVec.ofNat 8 text.length ≠ 0 := by
  have := List.length_pos_iff.2 hne
  bv_omega

/-- R57: the store of SETTEXT with its two tests written out, as the decoder makes them (R177). -/
theorem settextMemory_eq_ite (row col : Byte) (text : List Byte) (m : Memory) : settextMemory row col text m =
    if row.toNat ≤ 3 ∧ col.toNat ≤ 15 then putText row.toNat col.toNat text m else m := by
  simp only [settextMemory, startInRange_iff]

/-- Without text SETTEXT writes only the latches: its third operand byte was the last. -/
theorem exec_settext_nil (row col : Byte) (s : State) : exec (.settext row col []) s = .next { s with
    op := 6, argn := 2, aRow := row, aCol := col, aLen := 0, aIdx := 0, mstate := .op, trace := s.trace ++ [.ret] } := by
  have hmem : settextMemory row col [] s.lb = s.lb := by rw [settextMemory_eq_ite, putText, ite_self]
  simp only [exec, execSettext, hmem]
  rfl

/-- With text, SETTEXT stores it, and the decoder stands at its last byte. -/
theorem exec_settext_text (row col : Byte) {text : List Byte} (hne : text ≠ []) (s : State) :
    exec (.settext row col text) s = .next { s with
      lb := if row.toNat ≤ 3 ∧ col.toNat ≤ 15 then putText row.toNat col.toNat text s.lb else s.lb
      op := 6, argn := 3, aRow := row, aCol := col, aLen := BitVec.ofNat 8 text.length
      aIdx := BitVec.ofNat 8 (text.length - 1), mstate := .op, trace := s.trace ++ [.ret] } := by
  simp only [exec, execSettext, State.settextLatches, settextMemory_eq_ite, if_neg hne]

/-- R64, R177: the bytes of a SETTEXT, taken one by one, lead where the command leads at once. -/
theorem settext_taking {s t : State} (hm : s.mstate = .op) {row col : Byte} {text : List Byte}
    (hlen : text.length ≤ 255) (h : exec (.settext row col text) s = .next t) :
    Taking (encode (.settext row col text)) s t := by
  refine settextHead_taking hm row col ?_
  by_cases hne : text = []
  · subst hne
    rw [exec_settext_nil] at h
    cases h
    exact .arg rfl rfl (.nil _)
  · have hcount : (BitVec.ofNat 8 text.length).toNat = text.length := by
      rw [BitVec.toNat_ofNat, Nat.mod_eq_of_lt (by omega)]
    have htext := textBytes_taking text { s with
      op := 6, argn := 3, aRow := row, aCol := col, aLen := BitVec.ofNat 8 text.length, aIdx := 0, mstate := .arg }
      rfl rfl rfl hne (by rw [hcount]; exact Nat.zero_add _)
    rw [exec_settext_text row col hne] at h
    cases h
    refine .arg rfl (takeOperand_len rfl rfl (lengthByte_ne_zero hlen hne)) ?_
    rwa [hcount] at htext

/-- Settles O48: the bytes are taken one by one to the command's result (`settext_taking`); after a first part of them
the block is where it takes the next byte, or at that result, and it is not busy in either (`Taking.not_busy`). -/
theorem settextByteByByte : Obligations.SettextByteByByte := by
  intro row col text r s hlen hm
  obtain ⟨t, ht⟩ := exec_ex (.settext row col text) s
  have htaking := settext_taking hm hlen ht
  refine ⟨(htaking.clock r).trans ht.symm, fun k u hu => ?_⟩
  obtain ⟨v, hfirst, hrest⟩ := Taking.split (as := (encode (.settext row col text)).take k)
    (bs := (encode (.settext row col text)).drop k) (by rwa [List.take_append_drop])
  rw [← List.map_take, hfirst.clock r] at hu
  cases hu
  exact hrest.not_busy (by simp [State.busy, exec_mstate rfl ht])

/-! ## The order of RENDER -/

/-- R56, R152: the row selector with its two bits exchanged is the row order 0, 2, 1, 3. -/
theorem rho_eq_rowOrder {k : Nat} (hk : k < 64) : rho (k >>> 4) = [0, 2, 1, 3].getD (k >>> 4) 0 := by
  revert k
  decide

/-- R172: the first 64 positions of RENDER's script are the data frames of its cells. -/
theorem micro_render {k : Nat} (hk : k < 64) (s : State) :
    micro .render (BitVec.ofNat 7 k) s = some (.write 1 (renderCell s k)) := by
  have hn : (BitVec.ofNat 7 k).toNat = k := by
    rw [BitVec.toNat_ofNat, Nat.mod_eq_of_lt (by omega)]
  rw [micro, hn, script, List.getElem?_append_left (by simpa using hk), List.getElem?_map, List.getElem?_range hk]
  rfl

/-- Settles O11: both levels read the cells in the order `rho` (`renderCells_eq_map`, `micro_render`). -/
theorem renderOrderIsRho : Obligations.RenderOrderIsRho := by
  intro s k hk
  rw [← rho_eq_rowOrder hk]
  refine ⟨?_, micro_render hk s⟩
  simp [renderCells_eq_map, hk, State.cell]

end Sys2Proof.Machine
end

section
/-! 30_encoding.md: the command stream (R80 to R88), the wire frame (R89 to R96), the pseudo-instructions (R101), and
how a word of the opcode table is placed for the next step. -/

namespace Sys2Proof.Machine

/-! ## The wire frame -/

/-- R91: five ones, R/W 0, the channel and a 0. -/
theorem syncByte_fields (ch : Bit) : (syncByte ch).extractLsb' 3 5 = 0b11111 ∧ (syncByte ch).getLsbD 2 = false ∧
    (syncByte ch).extractLsb' 1 1 = ch ∧ (syncByte ch).getLsbD 0 = false := by
  revert ch
  decide

/-- R92: the high nibble and four zeros. -/
theorem highByte_fields (v : Byte) :
    (highByte v).extractLsb' 4 4 = v.extractLsb' 4 4 ∧ (highByte v).extractLsb' 0 4 = 0 := by
  revert v
  decide

/-- R93: the low nibble and four zeros. -/
theorem lowByte_fields (v : Byte) :
    (lowByte v).extractLsb' 4 4 = v.extractLsb' 0 4 ∧ (lowByte v).extractLsb' 0 4 = 0 := by
  revert v
  decide

/-- R90: byte 1 lies in bits 23 to 16 of the frame, byte 2 in bits 15 to 8, byte 3 in bits 7 to 0. -/
theorem frameWord_getLsbD (ch : Bit) (v : Byte) (i : Nat) : (frameWord ch v).getLsbD i =
    if i < 8 then (lowByte v).getLsbD i else if i < 16 then (highByte v).getLsbD (i - 8)
    else (syncByte ch).getLsbD (i - 16) := by
  have hhigh : i - 8 < 8 ↔ i < 16 := by omega
  simp only [frameWord, BitVec.getLsbD_append, hhigh, Nat.sub_sub]

theorem frameWord_sync (ch : Bit) (v : Byte) (k n : Nat) :
    (frameWord ch v).extractLsb' (16 + k) n = (syncByte ch).extractLsb' k n := by
  ext i hi
  rw [BitVec.getElem_extractLsb', BitVec.getElem_extractLsb', frameWord_getLsbD, if_neg (by omega), if_neg (by omega),
    Nat.add_assoc, Nat.add_sub_cancel_left]

theorem frameWord_high (ch : Bit) (v : Byte) {k n : Nat} (h : k + n ≤ 8) :
    (frameWord ch v).extractLsb' (8 + k) n = (highByte v).extractLsb' k n := by
  ext i hi
  rw [BitVec.getElem_extractLsb', BitVec.getElem_extractLsb', frameWord_getLsbD, if_neg (by omega), if_pos (by omega),
    Nat.add_assoc, Nat.add_sub_cancel_left]

theorem frameWord_low (ch : Bit) (v : Byte) {k n : Nat} (h : k + n ≤ 8) :
    (frameWord ch v).extractLsb' k n = (lowByte v).extractLsb' k n := by
  ext i hi
  rw [BitVec.getElem_extractLsb', BitVec.getElem_extractLsb', frameWord_getLsbD, if_pos (by omega)]

/-- R96: bit 1 of the first byte is the channel. -/
theorem syncByte_channel (ch : Bit) : (syncByte ch).extractLsb' 1 1 = ch := by
  obtain ⟨-, -, hchannel, -⟩ := syncByte_fields ch
  exact hchannel

/-- R92, R93: a byte whose low nibble is 0 is its own second byte, and nothing of it is in the third. -/
theorem nibbles_of_low_zero {b : Byte} (h : b &&& 0x0F = 0) : highByte b = b ∧ lowByte b = 0 := by
  revert b
  decide

/-- R92, R93: a byte whose low nibble is 0, shifted down by four, has its high nibble in the third byte alone. -/
theorem nibbles_of_shifted {b : Byte} (h : b &&& 0x0F = 0) : highByte (b >>> 4) = 0 ∧ lowByte (b >>> 4) = b := by
  revert b
  decide

theorem highByte_or (a b : Byte) : highByte (a ||| b) = highByte a ||| highByte b := BitVec.and_or_distrib_right

theorem lowByte_or (a b : Byte) : lowByte (a ||| b) = lowByte a ||| lowByte b := by
  rw [lowByte, BitVec.shiftLeft_or_distrib, BitVec.and_or_distrib_right]
  rfl

/-- R96: two bytes with low nibbles 0 are the second and third byte of the value they carry. -/
theorem bytes_frameValue {b2 b3 : Byte} (h2 : b2 &&& 0x0F = 0) (h3 : b3 &&& 0x0F = 0) :
    highByte (frameValue b2 b3) = b2 ∧ lowByte (frameValue b2 b3) = b3 := by
  obtain ⟨hhigh, hlow⟩ := nibbles_of_low_zero h2
  obtain ⟨hhigh', hlow'⟩ := nibbles_of_shifted h3
  rw [frameValue, highByte_or, lowByte_or, hhigh, hlow, hhigh', hlow']
  exact ⟨BitVec.or_zero, BitVec.zero_or⟩

/-- R89: the bytes of the frame micro-operation on a channel are the bytes of its frame. -/
theorem encode_frameInstr (ch : Bit) (v : Byte) : encode (frameInstr ch v) = frameBytes ch v := by
  rcases channel_cases ch with rfl | rfl <;> rfl

/-- R89, R111: what is no command is a frame on one of the two channels. -/
theorem frameInstr_of_not_command {i : Instr} (hc : i.isCommand = false) : ∃ ch v, i = frameInstr ch v := by
  cases i with
  | frameI v => exact ⟨0, v, rfl⟩
  | frameD v => exact ⟨1, v, rfl⟩
  | _ => cases hc

theorem frameInstr_isCommand (ch : Bit) (v : Byte) : (frameInstr ch v).isCommand = false := by
  rcases channel_cases ch with rfl | rfl <;> rfl

/-- R94, R96: two bytes with low nibbles 0 after the sync byte of a channel are read as a frame on that channel. -/
theorem decodeFrame_sync {b2 b3 : Byte} (h2 : b2 &&& 0x0F = 0) (h3 : b3 &&& 0x0F = 0) (ch : Bit) (rest : List Byte) :
    decodeFrame (syncByte ch :: b2 :: b3 :: rest) = .frame (frameInstr ch (frameValue b2 b3)) := by
  rw [decodeFrame, if_neg (not_not.2 h2), if_neg (not_not.2 h3)]
  rcases channel_cases ch with rfl | rfl <;> rfl

/-- R96: a frame is read back from its three bytes, whatever follows. -/
theorem decodeFrame_frameBytes (ch : Bit) (v : Byte) (rest : List Byte) :
    decodeFrame (frameBytes ch v ++ rest) = .frame (frameInstr ch v) := by
  have h := decodeFrame_sync (highByte_low v) (lowByte_low v) ch rest
  rwa [frameValue_bytes] at h

/-- R94: what the frame decoder accepts begins with the three bytes of the frame it reads. -/
theorem bytes_of_decodeFrame {bs : List Byte} {i : Instr} (h : decodeFrame bs = .frame i) :
    ∃ ch v rest, i = frameInstr ch v ∧ bs = frameBytes ch v ++ rest := by
  unfold decodeFrame at h
  split at h
  case h_2 => cases h
  case h_1 b1 b2 b3 rest =>
    split at h
    · cases h
    split at h
    · cases h
    next h2 h3 =>
      obtain ⟨hhigh, hlow⟩ := bytes_frameValue (not_not.1 h2) (not_not.1 h3)
      have hbytes (ch : Bit) : syncByte ch :: b2 :: b3 :: rest = frameBytes ch (frameValue b2 b3) ++ rest := by
        simp [frameBytes, hhigh, hlow]
      split at h
      · cases h
        subst b1
        exact ⟨0, _, rest, rfl, hbytes 0⟩
      · split at h
        · cases h
          subst b1
          exact ⟨1, _, rest, rfl, hbytes 1⟩
        · cases h

/-- Settles O24: the accepted bytes are a frame's and nothing follows them (`bytes_of_decodeFrame`), and every frame is
read back (`decodeFrame_frameBytes`). -/
theorem frameDecoderAcceptsOnlyFrames : Obligations.FrameDecoderAcceptsOnlyFrames := by
  intro b1 b2 b3 i
  constructor
  · intro h
    obtain ⟨ch, v, rest, rfl, hbytes⟩ := bytes_of_decodeFrame h
    obtain rfl : rest = [] := by simpa [frameBytes] using congrArg List.length hbytes
    refine ⟨v, ?_⟩
    rcases channel_cases ch with rfl | rfl
    · exact .inl ⟨rfl, hbytes⟩
    · exact .inr ⟨rfl, hbytes⟩
  · rintro ⟨v, ⟨rfl, hbytes⟩ | ⟨rfl, hbytes⟩⟩
    · rw [hbytes]
      exact decodeFrame_frameBytes 0 v []
    · rw [hbytes]
      exact decodeFrame_frameBytes 1 v []

/-- Settles O22: a field of the frame is a field of the byte it lies in (R90). -/
theorem frameBitFields : Obligations.FrameBitFields := by
  intro ch v
  obtain ⟨hones, hrw, hchannel, hzero⟩ := syncByte_fields ch
  obtain ⟨hhigh, hhigh0⟩ := highByte_fields v
  obtain ⟨hlow, hlow0⟩ := lowByte_fields v
  exact ⟨(frameWord_sync ch v 3 5).trans hones, (frameWord_getLsbD ch v 18).trans hrw,
    (frameWord_sync ch v 1 1).trans hchannel, (frameWord_getLsbD ch v 16).trans hzero,
    (frameWord_high ch v (k := 4) (by decide)).trans hhigh, (frameWord_high ch v (k := 0) (by decide)).trans hhigh0,
    (frameWord_low ch v (by decide)).trans hlow, (frameWord_low ch v (by decide)).trans hlow0⟩

/-- Settles O23: the value comes back from the last two bytes (`frameValue_bytes`) and the channel from the first
(`syncByte_channel`), so equal frames carry equal values on equal channels. -/
theorem frameReassembly : Obligations.FrameReassembly := by
  refine ⟨fun ch v => ⟨_, _, _, rfl, (frameValue_bytes v).symm, (syncByte_channel ch).symm⟩, fun ch ch' v v' h => ?_⟩
  obtain ⟨hsync, hhigh, hlow⟩ : syncByte ch = syncByte ch' ∧ highByte v = highByte v' ∧ lowByte v = lowByte v' := by
    simpa [frameBytes] using h
  constructor
  · rw [← syncByte_channel ch, hsync, syncByte_channel]
  · rw [← frameValue_bytes v, hhigh, hlow, frameValue_bytes]

/-! ## The command stream -/

/-- R85: a SETTEXT whose text is all there is the encoding of the command with that text, and what follows. -/
theorem settext_bytes {len : Byte} {bs : List Byte} (h : len.toNat ≤ bs.length) (row col : Byte) :
    0x06 :: row :: col :: len :: bs = encode (.settext row col (bs.take len.toNat)) ++ bs.drop len.toNat := by
  simp [encode, Nat.min_eq_left h]

/-- R205 (b): a SETTEXT whose text is not all there is not read yet. -/
theorem decode_settext_short {len : Byte} {bs : List Byte} (h : ¬len.toNat ≤ bs.length) (row col : Byte) :
    decode (0x06 :: row :: col :: len :: bs) = .incomplete := if_neg h

/-- R80 to R87: a byte stream begins with the encoding of a well-formed command, ends inside a command, or has a
reserved byte at its head. -/
theorem stream_cases (bs : List Byte) :
    (∃ i rest, i.wf = true ∧ i.isCommand = true ∧ bs = encode i ++ rest) ∨ decode bs = .incomplete ∨
      ∃ b rest, (b = 0 ∨ 8 ≤ b.toNat) ∧ bs = b :: rest := by
  rcases bs with _ | ⟨b, bs⟩
  · exact .inr (.inl rfl)
  rcases opcode_cases b with rfl | rfl | rfl | rfl | rfl | rfl | rfl | hb
  · rcases bs with _ | ⟨v, bs⟩
    · exact .inr (.inl rfl)
    · exact .inl ⟨.sendi v, bs, rfl, rfl, rfl⟩
  · rcases bs with _ | ⟨v, bs⟩
    · exact .inr (.inl rfl)
    · exact .inl ⟨.sendd v, bs, rfl, rfl, rfl⟩
  · exact .inl ⟨.reset, bs, rfl, rfl, rfl⟩
  · exact .inl ⟨.clear, bs, rfl, rfl, rfl⟩
  · rcases bs with _ | ⟨v, bs⟩
    · exact .inr (.inl rfl)
    · exact .inl ⟨.setbl v, bs, rfl, rfl, rfl⟩
  · rcases bs with _ | ⟨row, _ | ⟨col, _ | ⟨len, bs⟩⟩⟩
    · exact .inr (.inl rfl)
    · exact .inr (.inl rfl)
    · exact .inr (.inl rfl)
    · by_cases h : len.toNat ≤ bs.length
      · have hwf : (Instr.settext row col (bs.take len.toNat)).wf = true := by
          have := len.isLt
          simp only [Instr.wf, List.length_take, decide_eq_true_eq]
          omega
        exact .inl ⟨_, _, hwf, rfl, settext_bytes h row col⟩
      · exact .inr (.inl (decode_settext_short h row col))
  · exact .inl ⟨.render, bs, rfl, rfl, rfl⟩
  · exact .inr (.inr ⟨b, bs, hb, rfl⟩)

/-- R80 to R86: what is read as a command begins with its encoding, and takes exactly that. -/
theorem bytes_of_decode {bs : List Byte} {i : Instr} {n : Nat} (h : decode bs = .instr i n) :
    i.wf = true ∧ i.isCommand = true ∧ n = (encode i).length ∧ ∃ rest, bs = encode i ++ rest := by
  rcases stream_cases bs with ⟨j, rest, hw, hc, rfl⟩ | hshort | ⟨b, rest, hb, rfl⟩
  · rw [decode_encode_append hw hc] at h
    cases h
    exact ⟨hw, hc, rfl, rest, rfl⟩
  · rw [hshort] at h
    cases h
  · rw [decode_reserved hb] at h
    cases h

/-- R87: a byte at the head of the stream is read as reserved exactly when it is no opcode. -/
theorem decode_reserved_iff (b : Byte) (bs : List Byte) : decode (b :: bs) = .reserved b ↔ b = 0 ∨ 8 ≤ b.toNat := by
  refine ⟨fun h => ?_, fun h => decode_reserved h bs⟩
  rcases stream_cases (b :: bs) with ⟨i, rest, hw, hc, hbs⟩ | hshort | ⟨c, rest, hc, hbs⟩
  · rw [hbs, decode_encode_append hw hc] at h
    cases h
  · rw [hshort] at h
    cases h
  · cases hbs
    exact hc

/-- Settles O25: a command is read by `decode_encode_append`; any other instruction is a frame on one of the channels,
read by `decodeFrame_frameBytes`. -/
theorem decodeOfEncode : Obligations.DecodeOfEncode := by
  intro i rest hw
  refine ⟨fun hc => decode_encode_append hw hc rest, fun hc => ?_⟩
  obtain ⟨ch, v, rfl⟩ := frameInstr_of_not_command hc
  rw [encode_frameInstr, decodeFrame_frameBytes]

/-- Settles O26: the bytes read begin with the encoding (`bytes_of_decode`), so as many of them as it is long are it. -/
theorem decodedBytesAreTheEncoding : Obligations.DecodedBytesAreTheEncoding := by
  intro bs i n h
  obtain ⟨hw, hc, rfl, rest, rfl⟩ := bytes_of_decode h
  exact ⟨hw, hc, rfl, List.take_left' rfl⟩

/-- Settles O27: the two decoders, of the stream and of the cycle level, pass over the same bytes (`decode_reserved_iff`,
`decodeOpcode_reserved`), and what the step then leaves is the state without the byte. -/
theorem reservedOpcodeIsDiscarded : Obligations.ReservedOpcodeIsDiscarded := by
  refine ⟨decode_reserved_iff, fun b rest s hb hm hh => ⟨?_, decodeOpcode_reserved hb s, by simp [State.busy, hm]⟩⟩
  rw [step_op (by simp [hh]) hm, fetchCommand, hh, offered, decode_reserved hb]
  rfl

/-- Settles O28: each string of bytes is the encoding of its instruction, and nothing follows it. -/
theorem wordsDecodeToTheirInstructions : Obligations.WordsDecodeToTheirInstructions :=
  ⟨decode_encode_append (i := .sendi 0x30) rfl rfl [], decode_encode_append (i := .sendd 0x48) rfl rfl [],
    decode_encode_append (i := .reset) rfl rfl [], decode_encode_append (i := .clear) rfl rfl [],
    decode_encode_append (i := .setbl 0xFE) rfl rfl [],
    decode_encode_append (i := .settext 0 0 [0x48, 0x45, 0x4C, 0x4C, 0x4F]) rfl rfl [],
    decode_encode_append (i := .render) rfl rfl [], decodeFrame_frameBytes 0 0x30 [], decodeFrame_frameBytes 1 0xA5 []⟩

/-- Settles O29: the bytes are those of the command each line stands for (R82, R101). -/
theorem pseudoInstructionsExpand : Obligations.PseudoInstructionsExpand :=
  ⟨fun _ _ => rfl, rfl, rfl, rfl, rfl, rfl, fun _ => rfl⟩

/-! ## A word of the opcode table, placed for the next step -/

/-- Log 3: a table word that spells a command is read by the command decoder; the frame decoder reads no command. -/
theorem decode_of_decodeTableWord {nbits w : Nat} {i : Instr} (h : decodeTableWord nbits w = some i)
    (hc : i.isCommand = true) : ∃ n, decode (tableBytes nbits w) = .instr i n := by
  unfold decodeTableWord at h
  split at h
  next j n hdecode =>
    cases h
    exact ⟨n, hdecode⟩
  · cases h
  · split at h
    · split at h
      next j hframe =>
        cases h
        obtain ⟨ch, v, -, rfl, -⟩ := bytes_of_decodeFrame hframe
        rw [frameInstr_isCommand] at hc
        cases hc
      · cases h
    · cases h

theorem withFetchWord_command {nbits w : Nat} {i : Instr} (h : decodeTableWord nbits w = some i)
    (hc : i.isCommand = true) (s : State) : s.withFetchWord nbits w = placeCommand (tableBytes nbits w) s := by
  rw [State.withFetchWord, placeWord, h]
  cases i with
  | frameI _ => cases hc
  | frameD _ => cases hc
  | _ => rfl

theorem withFetchWord_frame {nbits w : Nat} {ch : Bit} {v : Byte} (h : decodeTableWord nbits w = some (frameInstr ch v))
    (s : State) : s.withFetchWord nbits w = placeFrame ch v s := by
  rw [State.withFetchWord, placeWord, h]
  rcases channel_cases ch with rfl | rfl <;> rfl

/-- A placed frame is offered its first byte, so the step runs the whole frame and starts the next position (log 2). -/
theorem step_placeFrame (ch : Bit) (v : Byte) (s : State) :
    step (placeFrame ch v s) = andThen (exec (frameInstr ch v) (placeFrame ch v s)) startNext := rfl

/-- Settles O50: a placed command's encoding is at the head of the host's bytes (`bytes_of_decode`), so `step_command`
runs it; a placed frame is run by `step_placeFrame`. -/
theorem placedWordIsRun : Obligations.PlacedWordIsRun := by
  intro s nbits w i h
  constructor
  · intro hc
    obtain ⟨n, hdecode⟩ := decode_of_decodeTableWord h hc
    obtain ⟨hw, -, -, rest, hbytes⟩ := bytes_of_decode hdecode
    rw [withFetchWord_command h hc]
    exact ⟨rest.map .byte ++ s.hostIn, step_command hw hc rfl (by simp [placeCommand, hbytes])⟩
  · intro hc
    obtain ⟨ch, v, rfl⟩ := frameInstr_of_not_command hc
    rw [withFetchWord_frame h]
    exact step_placeFrame ch v s

end Sys2Proof.Machine
end

section
/-! 40_frame_encoder.md: the frame micro-operation (R110), its settle (R112), and the two commands that send one frame
(R116, R117). -/

namespace Sys2Proof.Machine

/-! ## The settle -/

theorem settle_clear : settle 0 Config.clrOp = Config.nClear := if_pos ⟨rfl, rfl⟩

theorem settle_short {ch : Bit} {v : Byte} (h : ¬(ch = 0 ∧ v = Config.clrOp)) : settle ch v = Config.nShort := if_neg h

/-- Settles O13: `settle_clear` and `settle_short`, with the two counts of this hardware (R7). -/
theorem settleClassOfEveryWrite : Obligations.SettleClassOfEveryWrite :=
  ⟨settle_clear, fun _ _ h => settle_short h, by decide⟩

/-! ## One frame -/

/-- R111: FRAME.I and FRAME.D are the frame micro-operation on channel 0 and on channel 1. -/
theorem exec_frame (ch : Bit) (v : Byte) (s : State) :
    exec (if ch = 0 then .frameI v else .frameD v) s = .next (s.write ch v) := by
  rcases channel_cases ch with rfl | rfl <;> rfl

/-- Settles O12: the events added are those of the frame (`frameEvents_eq`), with the sync byte as R110 computes it
(`syncByte_eq`). -/
theorem writeSendsOneFrame : Obligations.WriteSendsOneFrame := by
  intro ch v s
  refine ⟨s.write ch v, exec_frame ch v s, ?_, s.write_lb ch v, s.write_init ch v, s.write_csRs ch v, s.write_bl ch v⟩
  rw [State.write_trace, frameEvents_eq, syncByte_eq]
  rfl

/-! ## SENDI and SENDD -/

/-- R116, R117: an instruction that is one frame and the end of its script adds the events of the frame and `RET`, and
keeps the architectural state. -/
theorem exec_oneFrame {i : Instr} {s : State} {ch : Bit} {v : Byte} {op : BitVec 3}
    (h : exec i s = .next (({ s with op := op }.write ch v).complete .one 1)) : ∃ t, exec i s = .next t ∧
    t.trace = s.trace ++ (frameEvents ch v ++ [.ret]) ∧ t.lb = s.lb ∧ t.init = s.init ∧ t.csRs = s.csRs ∧ t.bl = s.bl :=
  ⟨_, h, by simp, by simp⟩

/-- Settles O1: SENDI is one frame on channel 0, which has the long settle for 0x01 alone (`frameEvents_instruction`). -/
theorem sendiSendsInstructionFrame : Obligations.SendiSendsInstructionFrame := by
  intro v s
  have hframe := exec_oneFrame (show exec (.sendi v) s = .next (({ s with op := 1 }.write 0 v).complete .one 1) from rfl)
  rw [frameEvents_instruction] at hframe
  exact ⟨rfl, hframe⟩

/-- Settles O2: SENDD is one frame on channel 1, which has the short settle for every value (`frameEvents_data`). -/
theorem senddSendsDataFrame : Obligations.SenddSendsDataFrame := by
  intro v s
  have hframe := exec_oneFrame (show exec (.sendd v) s = .next (({ s with op := 2 }.write 1 v).complete .one 1) from rfl)
  rw [frameEvents_data] at hframe
  exact ⟨rfl, hframe⟩

end Sys2Proof.Machine
end

section
/-! 41_reset_sequencer.md: the RESET sequence (R130), its totals (R136), and that nothing else changes `init` (R133). -/

namespace Sys2Proof.Machine

/-! ## Who changes `init` (R133) -/

/-- Accepting RESET sets UNINIT and starts its script (R176). -/
theorem acceptReset_starts {s t : State} (h : acceptReset s = .next t) :
    t.init = .uninit ∧ t.mstate = .run ∧ t.kind = .reset ∧ t.step = 0 := by
  rw [acceptReset_eq] at h
  cases h
  exact ⟨rfl, rfl, rfl, rfl⟩

/-- An opcode byte leaves `init` as it was, unless it is that of RESET (R175). -/
theorem decodeOpcode_init {b : Byte} {s t : State} (h : decodeOpcode b s = .next t) :
    t.init = s.init ∨ acceptReset s = .next t := by
  rcases decodeOpcode_cases b s with ⟨_, _, -, -, he⟩ | ⟨-, he⟩ | ⟨-, he⟩ | ⟨-, he⟩ | he <;> rw [he] at h
  case inr.inl => exact .inr h
  all_goals cases h; exact .inl rfl

/-- An operand byte does not touch `init` (R177). -/
theorem takeOperand_init {b : Byte} {s t : State} (ha : ArgInv s) (hm : s.mstate = .arg)
    (h : takeOperand b s = .next t) : t.init = s.init := by
  rcases takeOperand_cases ha hm b with ⟨_, he⟩ | he | ⟨-, he⟩ <;> rw [he] at h
  · cases h; rfl
  · cases h; rfl
  · rcases takeSettext_cases b s with ⟨_, _, _, _, _, _, -, -, he'⟩ | ⟨_, _, _, -, he'⟩ <;>
      rw [he'] at h <;> cases h <;> rfl

/-- An edge of a running script changes `init` only at the `END` of RESET (R178). -/
theorem runEdge_init {r : Bool} {s t : State} (hi : Inv s) (hm : s.mstate = .run) (h : runEdge r s = .next t)
    (hne : t.init ≠ s.init) : t.init = .ready ∧ s.kind = .reset ∧ t.mstate = .op := by
  rcases runEdge_cases hi hm h with ⟨_, _, _, rfl⟩ | ⟨-, -, n, -, hnext⟩
  · exact absurd rfl hne
  · obtain ⟨o, ho, hdone⟩ := hi.micro hm
    obtain ⟨-, -, -, hinit, -⟩ :=
      startNext_stay (s := s.emit [.wait n]) ((micro_congr _ _ rfl rfl rfl).trans ho) hdone hnext
    exact hinit hne

/-- Settles O41: an edge that changes `init` accepts RESET, in `M_BOOT` or at its opcode byte, or it is an edge of a
running script, which is then at the `END` of RESET. -/
theorem initChangesOnlyByReset : Obligations.InitChangesOnlyByReset := by
  intro p s t hp hi h hne
  rcases clockEdge_cases hp h with ⟨-, h⟩ | ⟨-, -, h⟩ | ⟨hm, -, h⟩ | ⟨hm, h⟩ | ⟨-, -, rfl⟩
  · exact .inl (acceptReset_starts h)
  · exact .inl (acceptReset_starts ((decodeOpcode_init h).resolve_left hne))
  · exact absurd (takeOperand_init hi.arg hm h) hne
  · obtain ⟨hready, hkind, hop⟩ := runEdge_init hi hm h hne
    exact .inr ⟨hready, hm, hkind, hop⟩
  · exact absurd rfl hne

/-! ## The sequence and its totals -/

/-- The events of one RESET: the line asserted, five instruction frames with the extra waits between them, and `RET`
(R130). -/
def resetEvents : List Event :=
  [.cs Config.csActive] ++ frameEvents 0 0x30 ++ [.wait Config.nFs1] ++ frameEvents 0 0x30 ++ [.wait Config.nFs2] ++
    frameEvents 0 0x0C ++ [.wait Config.nDisp] ++ frameEvents 0 0x01 ++ [.wait Config.nRmargin] ++
    frameEvents 0 0x06 ++ [.ret]

/-- R130, R41: RESET adds its events, ends READY with the line asserted, and keeps `LB` and `bl`. -/
theorem exec_reset (s : State) : ∃ t, exec .reset s = .next t ∧ t.trace = s.trace ++ resetEvents ∧
    t.init = .ready ∧ t.csRs = Config.csActive ∧ t.lb = s.lb ∧ t.bl = s.bl :=
  ⟨_, rfl, by simp [resetFrames_trace, resetEvents], by simp⟩

/-- Settles O3: `acceptReset_eq` is the start of the sequence, `exec_reset` the whole of it; its frames, byte by byte,
are those of the rule. -/
theorem resetRunsInitialisationSequence : Obligations.ResetRunsInitialisationSequence :=
  fun s => ⟨rfl, ⟨_, acceptReset_eq s, rfl, rfl, rfl⟩, exec_reset s⟩

/-- Settles O15: the events RESET adds are always `resetEvents`, and those are counted. -/
theorem resetTotals : Obligations.ResetTotals := by
  intro s t h
  obtain ⟨u, hu, htrace, -⟩ := exec_reset s
  cases h.symm.trans hu
  exact ⟨resetEvents, htrace, by decide⟩

end Sys2Proof.Machine
end

section
/-! 42_text_buffer_render.md: the cells SETTEXT writes and those it keeps (R146, R147), what RENDER sends (R148), and
its totals (R151). -/

namespace Sys2Proof.Machine

/-! ## The store of SETTEXT, read back -/

/-- R20, R50: a linear address names one cell of the grid. -/
theorem cellAddr_inj {r r' c c' : Nat} (hc : c < Config.cols) (hc' : c' < Config.cols)
    (h : cellAddr r c = cellAddr r' c') : r = r' ∧ c = c' := by
  have h16 : Config.cols = 16 := rfl
  simp only [cellAddr, h16] at hc hc' h
  omega

/-- R146, R58: a character that fits in the row is read back from its cell. -/
theorem read_settextMemory_cell {row col : Byte} {text : List Byte} {m : Memory} (hm : m.wf = true)
    (hr : startInRange row col = true) {i : Nat} (hi : i < text.length) (hc : col.toNat + i < Config.cols) :
    (settextMemory row col text m).read (cellAddr row.toNat (col.toNat + i)) = text[i] := by
  have hstart := (startInRange_iff row col).1 hr
  rw [settextMemory_in hstart]
  exact Memory.read_putText_cell (by omega) col.toNat text hm i hi hc

/-- R146, R147: an address SETTEXT does not store to reads as before. -/
theorem read_settextMemory_other {row col : Byte} {text : List Byte} (m : Memory) {a : Nat}
    (h : ∀ i, startInRange row col = true → i < text.length → col.toNat + i < Config.cols →
      a ≠ cellAddr row.toNat (col.toNat + i)) : (settextMemory row col text m).read a = m.read a := by
  unfold settextMemory
  split
  next hr => exact Memory.read_putText_other _ _ text m a fun i => h i hr
  · rfl

/-- R146: every cell of the grid after SETTEXT. -/
theorem read_settextMemory {m : Memory} (hm : m.wf = true) (row col : Byte) (text : List Byte) {r c : Nat}
    (hc : c < Config.cols) : (settextMemory row col text m).read (cellAddr r c) =
      if row.toNat ≤ 3 ∧ col.toNat ≤ 15 ∧ r = row.toNat ∧ col.toNat ≤ c then
        text.getD (c - col.toNat) (m.read (cellAddr r c))
      else m.read (cellAddr r c) := by
  split
  next h =>
    obtain ⟨hrow, hcol, rfl, hle⟩ := h
    obtain ⟨i, rfl⟩ := Nat.exists_eq_add_of_le hle
    rw [Nat.add_sub_cancel_left]
    by_cases hi : i < text.length
    · rw [List.getD_eq_getElem _ _ hi]
      exact read_settextMemory_cell hm ((startInRange_iff row col).2 ⟨hrow, hcol⟩) hi hc
    · rw [List.getD_eq_default _ _ (by omega)]
      refine read_settextMemory_other m fun j _ hj hjc haddr => ?_
      obtain ⟨-, hcol⟩ := cellAddr_inj hc hjc haddr
      omega
  next h =>
    refine read_settextMemory_other m fun i hr _ hic haddr => h ?_
    obtain ⟨hrow, hcol⟩ := (startInRange_iff row col).1 hr
    obtain ⟨rfl, rfl⟩ := cellAddr_inj hc hic haddr
    exact ⟨hrow, hcol, rfl, Nat.le_add_right _ _⟩

/-- R147 (h): storing the same text again changes nothing: a stored cell holds its character both times, any other
address is not touched. -/
theorem settextMemory_idem {m : Memory} (hm : m.wf = true) (row col : Byte) (text : List Byte) :
    settextMemory row col text (settextMemory row col text m) = settextMemory row col text m := by
  have hm' := Memory.settextMemory_wf row col text hm
  refine Memory.ext_of_wf (Memory.settextMemory_wf row col text hm') hm' fun a => ?_
  by_cases ha : ∃ i, startInRange row col = true ∧ i < text.length ∧ col.toNat + i < Config.cols ∧
      a = cellAddr row.toNat (col.toNat + i)
  · obtain ⟨i, hr, hi, hc, rfl⟩ := ha
    rw [read_settextMemory_cell hm' hr hi hc, read_settextMemory_cell hm hr hi hc]
  · exact read_settextMemory_other _ fun i hr hi hc haddr => ha ⟨i, hr, hi, hc, haddr⟩

/-! ## SETTEXT -/

/-- Settles O6: the line buffer afterwards is the store of SETTEXT (`exec_settext`), whose cells `read_settextMemory`
gives. -/
theorem settextWritesItsCells : Obligations.SettextWritesItsCells := by
  intro row col text s _ hm
  obtain ⟨t, hexec, htrace, hlb, hinit, hcs, hbl⟩ := exec_settext row col text s
  refine ⟨rfl, t, hexec, htrace, hinit, hcs, hbl, fun r c _ hc => ?_⟩
  rw [State.cell, hlb]
  exact read_settextMemory hm row col text hc

/-- Settles O9: both runs leave the store of SETTEXT in the line buffer they found, and that store is idempotent
(`settextMemory_idem`). -/
theorem settextTwiceIsSettextOnce : Obligations.SettextTwiceIsSettextOnce := by
  intro row col text s t u hm ht hu
  cases ht
  cases hu
  exact settextMemory_idem hm row col text

/-- Settles O19: `read_settextMemory_other` for the addresses that are not stored to; no other register of the
statement is written. -/
theorem settextFrame : Obligations.SettextFrame := by
  intro row col text s t h
  cases h
  exact ⟨fun a ha => read_settextMemory_other s.lb ha, rfl, rfl, rfl, rfl, rfl, rfl, rfl, rfl, rfl, rfl⟩

/-! ## RENDER -/

/-- R148: RENDER adds the data frames of its cells and `RET`, and keeps the architectural state. -/
theorem exec_render (s : State) : ∃ t, exec .render s = .next t ∧
    t.trace = s.trace ++ (renderCells s.lb).flatMap (frameEvents 1) ++ [.ret] ∧ t.lb = s.lb ∧ t.init = s.init ∧
    t.csRs = s.csRs ∧ t.bl = s.bl :=
  ⟨_, execRender_eq s, by rw [State.complete_trace, State.writeAll_trace], by simp⟩

/-- R148: the frames of the cells, row by row in the row order. -/
theorem renderCells_flatMap (m : Memory) (f : Byte → List Event) : (renderCells m).flatMap f =
    rowOrder.flatMap fun r => (List.range Config.cols).flatMap fun c => f (m.read (cellAddr r c)) := by
  simp only [renderCells, List.flatMap_assoc, List.flatMap_map]

/-- Settles O10: the frames `exec_render` adds are, row by row (`renderCells_flatMap`), those of the rule, each with the
short settle (`frameEvents_data`). -/
theorem renderSendsTheLineBuffer : Obligations.RenderSendsTheLineBuffer := by
  intro s
  have hrender := exec_render s
  simp only [renderCells_flatMap, frameEvents_data] at hrender
  exact ⟨rfl, hrender⟩

/-- R151: a data frame is three bytes and one short settle, whatever it carries. -/
theorem dataFrame_totals (x : Byte) : (txBytes (frameEvents 1 x)).length = 3 ∧
    ((frameEvents 1 x).filter fun e => decide (e = .wait 72)).length = 1 ∧ totalWait (frameEvents 1 x) = 72 ∧
    ((frameEvents 1 x).filter fun e => decide (e = .ret)).length = 0 := ⟨rfl, rfl, rfl, rfl⟩

/-- R151: data frames one after the other, counted frame by frame. -/
theorem dataFrames_totals (xs : List Byte) : (txBytes (xs.flatMap (frameEvents 1))).length = 3 * xs.length ∧
    ((xs.flatMap (frameEvents 1)).filter fun e => decide (e = .wait 72)).length = xs.length ∧
    totalWait (xs.flatMap (frameEvents 1)) = 72 * xs.length ∧
    ((xs.flatMap (frameEvents 1)).filter fun e => decide (e = .ret)).length = 0 := by
  induction xs with
  | nil => exact ⟨rfl, rfl, rfl, rfl⟩
  | cons x xs ih =>
    obtain ⟨htx, hwaits, htotal, hret⟩ := dataFrame_totals x
    rw [List.flatMap_cons, txBytes_append, totalWait_append, List.filter_append, List.filter_append]
    simp only [List.length_append, List.length_cons]
    omega

/-- Settles O16: RENDER adds the data frames of 64 cells (`renderCells_length`) and `RET`; the frames are counted by
`dataFrames_totals`. -/
theorem renderTotals : Obligations.RenderTotals := by
  intro s t h
  obtain ⟨u, hu, htrace, -⟩ := exec_render s
  cases h.symm.trans hu
  obtain ⟨htx, hwaits, htotal, hret⟩ := dataFrames_totals (renderCells s.lb)
  rw [renderCells_length] at htx hwaits htotal
  refine ⟨_, htrace.trans (List.append_assoc _ _ _), ?_, ?_, ?_, ?_⟩
  · rw [txBytes_append, List.length_append, htx]; rfl
  · rw [List.filter_append, List.length_append, hwaits]; rfl
  · rw [totalWait_append, htotal]; rfl
  · rw [List.filter_append, List.length_append, hret]; rfl

end Sys2Proof.Machine
end

section
/-! 43_clear_backlight.md: CLEAR is "clear display" and "set address to home" (R160), which is two SENDI without the
`RET` between them (R161), and SETBL writes the backlight line and sends nothing (R162). -/

namespace Sys2Proof.Machine

/-! ## CLEAR -/

/-- R10: two states have the same architectural state when the four registers `LB`, `init`, `cs_rs` and `bl` agree. -/
theorem arch_eq_iff {s t : State} : t.arch = s.arch ↔ t.lb = s.lb ∧ t.init = s.init ∧ t.csRs = s.csRs ∧ t.bl = s.bl := by
  simp [State.arch]

/-- R116: SENDI adds the frame of its value and `RET`, and keeps the architectural state. -/
theorem exec_sendi (v : Byte) (s : State) : ∃ t, exec (.sendi v) s = .next t ∧
    t.trace = s.trace ++ frameEvents 0 v ++ [.ret] ∧ t.arch = s.arch := by
  obtain ⟨t, hexec, htrace, hkept⟩ :=
    exec_oneFrame (show exec (.sendi v) s = .next (({ s with op := 1 }.write 0 v).complete .one 1) from rfl)
  exact ⟨t, hexec, htrace.trans (List.append_assoc _ _ _).symm, arch_eq_iff.2 hkept⟩

/-- R160: CLEAR adds the frames of 0x01 and of 0x80 and `RET`, and keeps the architectural state. -/
theorem exec_clear (s : State) : ∃ t, exec .clear s = .next t ∧
    t.trace = s.trace ++ frameEvents 0 0x01 ++ frameEvents 0 0x80 ++ [.ret] ∧ t.arch = s.arch :=
  ⟨_, rfl, by simp [insClearDisplay, insHome], by simp [arch_eq_iff]⟩

/-- Settles O4: of the two frames `exec_clear` gives, the first has the long settle and the second the short one
(`frameEvents_instruction`). -/
theorem clearSendsClearThenHome : Obligations.ClearSendsClearThenHome := by
  intro s
  obtain ⟨t, hexec, htrace, harch⟩ := exec_clear s
  refine ⟨rfl, t, hexec, ?_, arch_eq_iff.1 harch⟩
  rw [htrace, frameEvents_instruction, frameEvents_instruction]
  simp

/-- Settles O14: the event lists are the two frames, which SENDI and CLEAR send alike (`exec_sendi`, `exec_clear`), and
none of the three commands changes the architectural state. -/
theorem clearComposesTwoSendi : Obligations.ClearComposesTwoSendi := by
  intro s
  obtain ⟨t, ht, htrace, harch⟩ := exec_sendi 0x01 s
  obtain ⟨u, hu, hutrace, huarch⟩ := exec_sendi 0x80 t
  obtain ⟨w, hw, hwtrace, hwarch⟩ := exec_clear s
  exact ⟨_, _, t, u, w, ht, htrace, hu, hutrace, hw, hwtrace, hwarch.trans (huarch.trans harch).symm⟩

/-! ## SETBL -/

/-- R162: SETBL, with its level as bit 0 of the operand (R84). -/
theorem exec_setbl (imm8 : Byte) (s : State) : exec (.setbl imm8) s = .next { s with
    op := 5, bl := if imm8.getLsbD 0 then 1 else 0, mstate := .op
    trace := s.trace ++ [.bl (if imm8.getLsbD 0 then 1 else 0), .ret] } := by
  rw [← backlightLevel_eq]
  rfl

/-- Settles O5: `exec_setbl`; the block is left in `M_OP`, where it takes the next command byte. -/
theorem setblDrivesBacklightLine : Obligations.SetblDrivesBacklightLine :=
  fun imm8 s => ⟨rfl, _, exec_setbl imm8 s, rfl, rfl, rfl, rfl, rfl, rfl⟩

/-- Settles O20: SETBL writes `op`, `bl`, `mstate` and the trace (`exec_setbl`), and the statement names none of them. -/
theorem setblFrame : Obligations.SetblFrame := by
  intro imm8 s t h
  cases (exec_setbl imm8 s).symm.trans h
  exact ⟨fun _ => rfl, rfl, rfl, rfl, rfl, rfl, rfl, rfl, rfl, rfl, rfl, rfl, rfl, rfl, rfl, rfl⟩

end Sys2Proof.Machine
end

section
/-! 44_sequencer_fsm.md: the invariant of the machine (R189) through every clock edge and every step. -/

namespace Sys2Proof.Machine

/-! ## Idle blocks -/

/-- R189 (e): a block that is neither booting nor running has been initialised. -/
theorem Inv.ready {s : State} (hi : Inv s) (hb : s.mstate ≠ .boot) (hr : s.mstate ≠ .run) : s.init ≠ .uninit :=
  fun hu => (hi.init hu).elim hb fun h => hr h.1

/-- An idle block, initialised and with the line asserted, meets the invariant. -/
theorem inv_of_op {s : State} (hm : s.mstate = .op) (hp : s.phase = .idle) (hready : s.init ≠ .uninit)
    (hcs : s.csRs = Config.csActive) (hmem : MemoryInv s) : Inv s where
  phase := by simp [PhaseInv, hm, hp]
  timer := by simp [TimerInv, hp]
  position := by simp [PositionInv, hm]
  init := fun hu => absurd hu hready
  cs := fun _ => hcs
  arg := by simp [ArgInv, hm]
  memory := hmem

/-! ## One clock edge -/

/-- R189 (a), (b), (c) while a script runs, (e): every clock edge keeps `Inv`. -/
theorem clockEdge_inv {p : Pins} {s t : State} (hi : Inv s) (h : clockEdge p s = .next t) : Inv t := by
  cases hp : p.rst with
  | true =>
    rw [clockEdge_rst hp] at h
    cases h
    exact hardReset_inv s
  | false =>
    rcases clockEdge_cases hp h with ⟨-, h⟩ | ⟨hm, -, h⟩ | ⟨hm, -, h⟩ | ⟨hm, h⟩ | ⟨-, -, rfl⟩
    · exact acceptReset_inv hi.memory h
    · exact decodeOpcode_inv hi hm h
    · exact takeOperand_inv hi hm h
    · exact runEdge_inv hi hm p.txReady h
    · exact hi

/-- R189 (c): every clock edge comes to a valid position. -/
theorem clockEdge_stepInv {p : Pins} {s t : State} (hi : Inv s) (hs : StepInv s) (h : clockEdge p s = .next t) :
    StepInv t := by
  cases hp : p.rst with
  | true =>
    rw [clockEdge_rst hp] at h
    cases h
    exact stepInv_first rfl
  | false =>
    rcases clockEdge_cases hp h with ⟨-, h⟩ | ⟨-, -, h⟩ | ⟨hm, -, h⟩ | ⟨hm, h⟩ | ⟨-, -, rfl⟩
    · obtain ⟨-, -, -, hstep⟩ := acceptReset_starts h
      exact stepInv_first hstep
    · exact decodeOpcode_stepInv hs h
    · exact takeOperand_stepInv hi.arg hm hs h
    · exact runEdge_stepInv hi hm hs h
    · exact hs

/-- What keeps `Inv` and, under it, the valid position keeps the whole invariant: R189 (d) follows from (a). -/
theorem MachineInv.of_parts {s t : State} (hinv : Inv s → Inv t) (hstep : Inv s → StepInv s → StepInv t) :
    (Inv s → Inv t) ∧ (MachineInv s → MachineInv t) :=
  ⟨hinv, fun h => machineInv_iff.2 ⟨hinv h.base, hstep h.base h.step⟩⟩

/-- Settles O34: the positions of R173 one by one, for `Inv` (`clockEdge_inv`) and for the valid position
(`clockEdge_stepInv`). -/
theorem clockEdgeKeepsInvariant : Obligations.ClockEdgeKeepsInvariant := fun _ _ _ h =>
  MachineInv.of_parts (fun hi => clockEdge_inv hi h) (fun hi hs => clockEdge_stepInv hi hs h)

/-! ## One step -/

/-- An instruction run between scripts leaves an idle block that meets the invariant; RESET needs no initialised
block, it leaves one. -/
theorem exec_inv {i : Instr} {s t : State} (hp : s.phase = .idle) (hm : s.mstate = .op ∨ i = .reset)
    (hready : i ≠ .reset → s.init ≠ .uninit ∧ s.csRs = Config.csActive) (hmem : MemoryInv s)
    (h : exec i s = .next t) : Inv t := by
  have hop : t.mstate = .op := by
    cases hc : i.isCommand with
    | true => exact exec_mstate hc h
    | false =>
      obtain ⟨hkept, -⟩ := exec_position_of_frame hc h
      exact hkept.trans (hm.resolve_right fun hi => by simp [hi, Instr.isCommand] at hc)
  obtain ⟨hinit, hcs⟩ : t.init ≠ .uninit ∧ t.csRs = Config.csActive := by
    by_cases hi : i = .reset
    · subst hi
      obtain ⟨u, hu, -, hinit, hcs, -⟩ := exec_reset s
      cases h.symm.trans hu
      exact ⟨by simp [hinit], hcs⟩
    · obtain ⟨hinit, hcs⟩ := exec_init_csRs hi h
      rw [hinit, hcs]
      exact hready hi
  exact inv_of_op hop (exec_keeps_idle hp h) hinit hcs (exec_wf hmem h)

/-- A step of an idle block keeps the invariant. -/
theorem fetchCommand_inv {s t : State} (hi : Inv s) (hm : s.mstate = .op) (h : fetchCommand s = .next t) : Inv t := by
  rcases fetchCommand_cases h with ⟨i, items, h⟩ | ⟨_, rest, h⟩ | ⟨items, rfl⟩
  · have hready := hi.ready (by simp [hm]) (by simp [hm])
    have hcs := hi.cs (by simp [hm])
    exact exec_inv (s := { s with hostIn := items }) (hi.idle (by simp [hm])) (.inl hm) (fun _ => ⟨hready, hcs⟩)
      hi.memory h
  · exact decodeOpcode_inv (inv_host rest hi) hm h
  · exact inv_host items hi

/-- A step of a collecting block keeps the invariant. -/
theorem fetchOperand_inv {s t : State} (hi : Inv s) (hm : s.mstate = .arg) (h : fetchOperand s = .next t) : Inv t := by
  rcases fetchOperand_cases h with ⟨_, rest, h⟩ | rfl
  · exact takeOperand_inv (inv_host rest hi) hm h
  · exact hi

/-- A step of a running block is the next position of its script, after the events still owed. -/
theorem finishMicro_starts {s t : State} (hi : Inv s) (hm : s.mstate = .run) (h : finishMicro s = .next t) :
    ∃ u o, startNext u = .next t ∧ micro u.kind u.step u = some o ∧ o ≠ .done ∧ u.mstate = .run ∧ InitInv u ∧
      CsInv u ∧ MemoryInv u := by
  obtain ⟨o, ho, hne⟩ := hi.micro hm
  rw [finishMicro_eq hi hm] at h
  exact ⟨_, o, h, (micro_congr _ _ rfl rfl rfl).trans ho, hne, hm, hi.init, hi.cs, hi.memory⟩

/-- A step that a hardware reset begins is that reset (R230, log 14). -/
theorem step_rst {s : State} {rest : List HostItem} (hh : s.hostIn = .rst :: rest) :
    step s = .next (State.hardReset { s with hostIn := rest }) := by
  simp only [step, advance, hh]

/-- A reset is at the head of the host's offers, or none is. -/
theorem head_rst_or_not (s : State) : (∃ rest, s.hostIn = .rst :: rest) ∨ ∀ rest, s.hostIn ≠ .rst :: rest :=
  (em _).imp_right not_exists.1

/-- R189, step by step: every step keeps `Inv`. -/
theorem step_inv {s t : State} (hi : Inv s) (h : step s = .next t) : Inv t := by
  rcases head_rst_or_not s with ⟨rest, hh⟩ | hr
  · rw [step_rst hh] at h
    cases h
    exact hardReset_inv _
  · rcases step_cases hr h with ⟨hm, h⟩ | ⟨hm, h⟩ | ⟨hm, h⟩ | ⟨hm, h⟩
    · exact exec_inv (hi.idle (by simp [hm])) (.inr rfl) (absurd rfl) hi.memory h
    · exact fetchCommand_inv hi hm h
    · exact fetchOperand_inv hi hm h
    · obtain ⟨u, o, hnext, ho, hne, hrun, hinit, hcs, hmem⟩ := finishMicro_starts hi hm h
      exact startNext_inv hrun ho hne hinit hcs hmem hnext

/-- A valid position does not depend on the host's offers. -/
theorem StepInv.host {s : State} (items : List HostItem) (hs : StepInv s) : StepInv { s with hostIn := items } :=
  stepInv_congr (s := s) rfl rfl hs

/-- R189 (c), step by step: every step comes to a valid position. -/
theorem step_stepInv {s t : State} (hi : Inv s) (hs : StepInv s) (h : step s = .next t) : StepInv t := by
  rcases head_rst_or_not s with ⟨rest, hh⟩ | hr
  · rw [step_rst hh] at h
    cases h
    exact stepInv_first rfl
  · rcases step_cases hr h with ⟨-, h⟩ | ⟨-, h⟩ | ⟨hm, h⟩ | ⟨hm, h⟩
    · exact exec_stepInv hs h
    · rcases fetchCommand_cases h with ⟨_, items, h⟩ | ⟨_, rest, h⟩ | ⟨items, rfl⟩
      · exact exec_stepInv (StepInv.host items hs) h
      · exact decodeOpcode_stepInv (StepInv.host rest hs) h
      · exact StepInv.host items hs
    · rcases fetchOperand_cases h with ⟨_, rest, h⟩ | rfl
      · exact takeOperand_stepInv (s := { s with hostIn := rest }) hi.arg hm (StepInv.host rest hs) h
      · exact hs
    · obtain ⟨u, o, hnext, ho, hne, -⟩ := finishMicro_starts hi hm h
      exact startNext_stepInv ho hne hnext

/-- Settles O51: the positions of R173 one by one, for `Inv` (`step_inv`) and for the valid position
(`step_stepInv`). -/
theorem stepKeepsInvariant : Obligations.StepKeepsInvariant := fun _ _ h =>
  MachineInv.of_parts (fun hi => step_inv hi h) (fun hi hs => step_stepInv hi hs h)

end Sys2Proof.Machine
end

section
/-! 44_sequencer_fsm.md: the two levels agree (R187) and the latency of each command (R188). Each command's bytes are
taken one by one, its script then runs from `start` to `END`, and both are counted runs of clock edges (`Counts`). -/

namespace Sys2Proof.Machine

/-! ## A script from its first position to its end -/

/-- R187, R188: a script started at its first position comes to the meaning of its micro-operations, in the edges they
take. -/
theorem script_counts {k : Kind} {ops : List MicroOp} {s u : State} (hs : script k s = ops ++ [.done])
    (hr : ∀ rest, s.hostIn ≠ .rst :: rest) (hm : s.mstate = .run) (h : start k 0 s = .next u) :
    Counts (ops.map opCount).sum u ((finishInit k (play ops s)).complete k (BitVec.ofNat 7 ops.length)) := by
  obtain ⟨ops', hshape, hlen, hops⟩ := script_shape k s
  obtain rfl : ops' = ops := List.append_cancel_right (hshape.symm.trans hs)
  have hdone : ∀ o ∈ ops', o ≠ .done := fun o ho hd => by
    rcases hops o ho with ⟨c, v, rfl⟩ | ⟨-, n, -, rfl⟩ <;> cases hd
  have hfits : ∀ m, .extra m ∈ ops' → m < 2 ^ Config.timerWidth := fun m hmem => by
    obtain ⟨c, v, he⟩ | ⟨-, n, hn, he⟩ := hops _ hmem
    · cases he
    · cases he
      obtain ⟨-, hlt, -⟩ := extraWaits_bounds m hn
      exact hlt
  have hstart : startFrom k 0 (ops' ++ [.done]) s = .next u := by rwa [start, hs] at h
  have hcount := startFrom_counts ops' 0 s u hs (by simp; omega) hdone hfits hr hm hstart
  rwa [show (0 : BitVec 7) = 0#7 from rfl, BitVec.zero_add] at hcount

/-- R116, R117: the script of SENDI and SENDD. -/
theorem one_counts {c : Bit} {v : Byte} {s u : State} (hr : ∀ rest, s.hostIn ≠ .rst :: rest)
    (h : start .one 0 { s with ch := c, val := v, mstate := .run } = .next u) :
    Counts (3 + settle c v) u ((s.write c v).complete .one 1) :=
  script_counts (s := { s with ch := c, val := v, mstate := .run }) (ops := [.write c v]) rfl hr rfl h

/-- R160: the script of CLEAR. -/
theorem clear_counts {s t u : State} (hr : ∀ rest, s.hostIn ≠ .rst :: rest)
    (h : start .clear 0 { s with mstate := .run } = .next u) (ht : exec .clear s = .next t) : Counts 1678 u t := by
  cases ht
  exact script_counts (s := { s with mstate := .run }) (ops := [.write 0 0x01, .write 0 0x80]) rfl hr rfl h

/-- R130: the script of RESET, for the command and for the automatic run. -/
theorem reset_counts {s t u : State} (hr : ∀ rest, s.hostIn ≠ .rst :: rest) (h : acceptReset s = .next u)
    (ht : exec .reset s = .next t) : Counts 10550 u t := by
  cases ht
  exact script_counts (s := { s.assertCs with mstate := .run }) (ops := [.write 0 0x30, .extra Config.nFs1,
    .write 0 0x30, .extra Config.nFs2, .write 0 0x0C, .extra Config.nDisp, .write 0 0x01, .extra Config.nRmargin,
    .write 0 0x06]) rfl hr rfl h

/-- The frames of a list of values, as micro-operations. -/
theorem play_writes (c : Bit) (xs : List Byte) (s : State) : play (xs.map (.write c)) s = s.writeAll c xs := by
  induction xs generalizing s with
  | nil => rfl
  | cons x xs ih => exact ih (s.write c x)

/-- R188: a data frame takes three edges and the short settle. -/
theorem dataFrames_count (xs : List Byte) : ((xs.map (MicroOp.write 1)).map opCount).sum = 75 * xs.length := by
  have hone : opCount ∘ MicroOp.write 1 = fun _ => 75 := funext fun _ => rfl
  rw [List.map_map, hone, List.map_const', List.sum_replicate, smul_eq_mul, Nat.mul_comm]

/-- Frames do not look at the position. -/
theorem writeAll_mstate_eq (c : Bit) (xs : List Byte) (s : State) (m : MState) :
    ({ s with mstate := m } : State).writeAll c xs = { s.writeAll c xs with mstate := m } := by
  induction xs generalizing s with
  | nil => rfl
  | cons x xs ih => exact ih (s.write c x)

/-- R148, R172: the script of RENDER is the data frames of its cells. -/
theorem script_render (s : State) : script .render s = (renderCells s.lb).map (.write 1) ++ [.done] := by
  rw [renderCells_eq_map, List.map_map]
  rfl

/-- R148: the script of RENDER. -/
theorem render_counts {s t u : State} (hr : ∀ rest, s.hostIn ≠ .rst :: rest)
    (h : start .render 0 { s with mstate := .run } = .next u) (ht : exec .render s = .next t) : Counts 4800 u t := by
  cases (execRender_eq s).symm.trans ht
  have hcount := script_counts (script_render { s with mstate := .run }) hr rfl h
  rw [dataFrames_count, List.length_map, renderCells_length, play_writes, writeAll_mstate_eq] at hcount
  exact hcount

/-! ## A command, from its first byte to its `RET` -/

/-- R188: the edges a command takes after its bytes when the transport answers at once. -/
def latency : Instr → Nat
  | .sendi v => if v = 0x01 then 1603 else 75
  | .sendd _ => 75
  | .clear => 1678
  | .reset => 10550
  | .render => 4800
  | _ => 0

/-- R112: the frame of SENDI takes the long settle for 0x01 alone. -/
theorem latency_sendi (v : Byte) : latency (.sendi v) = 3 + settle 0 v := by
  by_cases hv : v = 0x01
  · subst hv
    rfl
  · rw [settle_short (fun h => hv h.2)]
    exact if_neg hv

/-- R175 to R178: an idle block takes the bytes of a command one by one, and from where they leave it the clock edges
come to what the command answers, in the edges of its latency. -/
theorem command_taking {i : Instr} {s t : State} (hw : i.wf = true) (hc : i.isCommand = true) (hm : s.mstate = .op)
    (hr : ∀ rest, s.hostIn ≠ .rst :: rest) (h : exec i s = .next t) :
    ∃ u, Taking (encode i) s u ∧ Counts (latency i) u t := by
  cases i with
  | sendi v =>
    cases h
    rw [latency_sendi]
    exact ⟨_, .op hm rfl (.arg rfl rfl (.nil _)), one_counts (s := { s with op := 1 }) hr rfl⟩
  | sendd v =>
    cases h
    exact ⟨_, .op hm rfl (.arg rfl rfl (.nil _)), one_counts (s := { s with op := 2 }) hr rfl⟩
  | reset => exact ⟨_, .op hm (acceptReset_eq s) (.nil _), reset_counts hr (acceptReset_eq s) h⟩
  | clear => exact ⟨_, .op hm rfl (.nil _), clear_counts hr rfl h⟩
  | render => exact ⟨_, .op hm rfl (.nil _), render_counts hr rfl h⟩
  | setbl imm8 =>
    cases h
    exact ⟨_, .op hm rfl (.arg rfl rfl (.nil _)), Leads.refl _, rfl⟩
  | settext row col text =>
    exact ⟨t, settext_taking hm (by simpa [Instr.wf] using hw) h, Leads.refl t, rfl⟩
  | frameI v => cases hc
  | frameD v => cases hc

/-- R187, R188: a command whose bytes are at the head of the host's offers, edge by edge. -/
theorem command_counts {i : Instr} {rest : List HostItem} {s t : State} (hw : i.wf = true) (hc : i.isCommand = true)
    (hm : s.mstate = .op) (hh : s.hostIn = (encode i).map .byte ++ rest) (hr : ∀ r, rest ≠ .rst :: r)
    (h : exec i { s with hostIn := rest } = .next t) : Counts ((encode i).length + latency i) s t := by
  obtain ⟨u, hbytes, hscript⟩ := command_taking hw hc (s := { s with hostIn := rest }) hm hr h
  exact (hbytes.counts hh).trans hscript

/-- No reset is at the head of offers that hold none. -/
theorem head_ne_rst {items : List HostItem} (h : .rst ∉ items) (rest : List HostItem) : items ≠ .rst :: rest :=
  fun he => h (by simp [he])

/-- Settles O57: the bytes and then the script of the command, counted (`command_counts`). -/
theorem commandLatencies : Obligations.CommandLatencies := by
  intro i rest s hw hc hm hh hr
  obtain ⟨t, ht⟩ := exec_ex i { s with hostIn := rest }
  obtain ⟨-, hedges⟩ := command_counts hw hc hm hh (head_ne_rst hr) ht
  rw [ht]
  exact hedges

/-! ## The two levels agree (R187) -/

/-- What is read as a reserved byte is at the head of the stream (R87). -/
theorem byte_of_decode_reserved {bs : List Byte} {b : Byte} (h : decode bs = .reserved b) :
    ∃ c rest, (c = 0 ∨ 8 ≤ c.toNat) ∧ bs = c :: rest := by
  rcases stream_cases bs with ⟨i, rest, hw, hc, rfl⟩ | hshort | hreserved
  · rw [decode_encode_append hw hc] at h
    cases h
  · rw [hshort] at h
    cases h
  · exact hreserved

/-- The first offered byte is the host's next item (R35). -/
theorem items_of_offered_cons {items : List HostItem} {b : Byte} {bs : List Byte} (h : offered items = b :: bs) :
    ∃ rest, items = .byte b :: rest := by
  rcases items with _ | ⟨_ | _, rest⟩
  · cases h
  · cases h
    exact ⟨rest, rfl⟩
  · cases h

/-- The host's items begin with the bytes it offers. -/
theorem items_of_offered_append {items : List HostItem} {as bs : List Byte} (h : offered items = as ++ bs) :
    items = as.map .byte ++ items.drop as.length := by
  have htake := take_offered items as.length (by simp [h])
  rw [h, List.take_left' rfl] at htake
  rw [← htake, List.take_append_drop]

/-- The clock edges come to where a step of an idle block comes: a whole command (`command_counts`), a byte passed
over, the opcode byte of a command, or nothing. -/
theorem fetchCommand_leads {s t : State} (hm : s.mstate = .op) (hr : .rst ∉ s.hostIn) (h : fetchCommand s = .next t) :
    Leads s t := by
  unfold fetchCommand at h
  split at h
  next i n hdecode =>
    obtain ⟨hw, hc, rfl, bs, hbytes⟩ := bytes_of_decode hdecode
    have hrest : .rst ∉ s.hostIn.drop (encode i).length := fun hmem => hr (List.mem_of_mem_drop hmem)
    exact (command_counts hw hc hm (items_of_offered_append hbytes) (head_ne_rst hrest) h).1
  next b hdecode =>
    obtain ⟨c, bs, hreserved, hbytes⟩ := byte_of_decode_reserved hdecode
    obtain ⟨rest, hh⟩ := items_of_offered_cons hbytes
    cases h
    rw [hh]
    exact leads_op hh hm (decodeOpcode_reserved hreserved _)
  · split at h
    next b rest hh => exact leads_op hh hm h
    all_goals
      cases h
      exact Leads.refl s

/-- The clock edges come to where a step of a collecting block comes (R177). -/
theorem fetchOperand_leads {s t : State} (hm : s.mstate = .arg) (h : fetchOperand s = .next t) : Leads s t := by
  unfold fetchOperand at h
  split at h
  next b rest hh => exact leads_arg hh hm h
  all_goals
    cases h
    exact Leads.refl s

/-- R187: the clock edges come to where a step comes. -/
theorem step_leads {s t : State} (hi : Inv s) (hr : .rst ∉ s.hostIn) (h : step s = .next t) : Leads s t := by
  have hhead := head_ne_rst hr
  rcases step_cases hhead h with ⟨hm, h⟩ | ⟨hm, h⟩ | ⟨hm, h⟩ | ⟨hm, h⟩
  · have hstart := Leads.edge fun e => (edge_boot hhead hm e).trans (acceptReset_eq s)
    exact hstart.trans (reset_counts hhead (acceptReset_eq s) h).1
  · exact fetchCommand_leads hm hr h
  · exact fetchOperand_leads hm h
  · exact finishMicro_leads hi hm hhead h

/-- Settles O54: every step is a run of clock edges (`step_leads`). -/
theorem edgesReachEveryStep : Obligations.EdgesReachEveryStep := fun _ _ hi hr h => step_leads hi hr h

/-- An edge uses up at most the first of the host's offers (R35, R204). -/
theorem edge_hostIn {e : Env} {s t : State} (h : edge e s = .next t) : t.hostIn <:+ s.hostIn := by
  rw [clockEdge_hostIn h]
  show (if _ then _ else _) <:+ _
  split
  · exact List.tail_suffix _
  · exact List.suffix_rfl

/-- Clock edges use up the host's offers from the front. -/
theorem edges_hostIn {env : Nat → Env} {k : Nat} {s t : State} (h : edges env k s = .next t) :
    t.hostIn <:+ s.hostIn := by
  induction k generalizing t with
  | zero =>
    cases h
    exact List.suffix_rfl
  | succ k ih =>
    obtain ⟨u, hu, he⟩ := andThen_eq_next.1 h
    exact (edge_hostIn he).trans (ih hu)

/-- The schedule in which host and transport are always ready is fair (R205). -/
theorem fair_always : Fair fun _ => ⟨true, true⟩ := ⟨fun n => ⟨n, le_rfl, rfl⟩, fun n => ⟨n, le_rfl, rfl⟩⟩

/-- Where the clock edges lead, the host offers the rest of what it offered. -/
theorem Leads.hostIn {s t : State} (h : Leads s t) : t.hostIn <:+ s.hostIn := by
  obtain ⟨k, hk⟩ := h _ fair_always
  exact edges_hostIn hk

/-- R187 for runs: the steps of a run one after the other, each from a state that meets the invariant. -/
theorem run_leads (n : Nat) {s t : State} (hi : Inv s) (hr : .rst ∉ s.hostIn) (h : core.run n s = .next t) :
    Leads s t := by
  induction n generalizing s with
  | zero =>
    cases h
    exact Leads.refl _
  | succ n ih =>
    obtain ⟨u, hstep, hrun⟩ := (run_succ_next core n _ t).1 h
    have hlead := step_leads hi hr hstep
    exact hlead.trans (ih (step_inv hi hstep) (fun hmem => hr (hlead.hostIn.subset hmem)) hrun)

/-- Settles O55: by induction on the number of steps (`run_leads`). -/
theorem edgesReachEveryRun : Obligations.EdgesReachEveryRun := fun n _ _ hi hr h => run_leads n hi hr h

end Sys2Proof.Machine
end

section
/-! 44_sequencer_fsm.md: the pins and the outputs (R171, R173), how long a wait and a frame last (R184, R188), the
trace (R186), and what a step runs. -/

namespace Sys2Proof.Machine

/-! ## The pins and the outputs (R171, R173) -/

/-- Settles O37: each position looks at its own pins and at no other (`clockEdge_boot` and its like). -/
theorem pinsCountOnlyWhereRuled : Obligations.PinsCountOnlyWhereRuled := by
  intro p q s hp hq
  refine ⟨fun hcmd htx => ?_, fun hready hvalid => ?_⟩
  · rcases hm : s.mstate with _ | _ | _ | _
    · rw [clockEdge_boot hp hm, clockEdge_boot hq hm]
    · obtain ⟨hvalid, hbyte⟩ := hcmd (by simp [State.cmdReady, hm])
      rw [clockEdge_op hp hm, clockEdge_op hq hm, hvalid, hbyte]
    · obtain ⟨hvalid, hbyte⟩ := hcmd (by simp [State.cmdReady, hm])
      rw [clockEdge_arg hp hm, clockEdge_arg hq hm, hvalid, hbyte]
    · rw [clockEdge_run hp hm, clockEdge_run hq hm, htx hm]
  · rcases (show s.mstate = .op ∨ s.mstate = .arg by simpa [State.cmdReady] using hready) with hm | hm
    · simp [clockEdge_op hp hm, hvalid]
    · simp [clockEdge_arg hp hm, hvalid]

/-- Settles O40: each output is the register or the byte R171 names; the sync byte as R110 computes it
(`syncByte_eq`). -/
theorem outputsFollowRegisters : Obligations.OutputsFollowRegisters := fun s =>
  ⟨by simp [State.cmdReady], by simp [State.busy], by simp [State.isReady], txValid_iff s,
    fun hp => by rw [State.txByte, hp]; exact syncByte_eq s.ch, fun hp => by rw [State.txByte, hp]; rfl,
    fun hp => by rw [State.txByte, hp]; rfl, rfl, rfl⟩

/-! ## The step -/

/-- Settles O49: a whole command is `step_command`; elsewhere the position names the instruction (R173), unless a
reset is offered (`step_rst`). -/
theorem stepRunsTheDecodedInstruction : Obligations.StepRunsTheDecodedInstruction := by
  refine ⟨fun s i rest hw hc hm hh => step_command hw hc hm hh, fun s hr hm hp => ?_, fun s hr hm => ?_,
    fun s rest hh => step_rst hh⟩
  · have hframe : frameInstr s.ch s.val = if s.ch = 0 then .frameI s.val else .frameD s.val := by
      rcases channel_cases s.ch with hch | hch <;> simp [frameInstr, hch]
    simp only [advance_of_no_reset hr, advancePosition, hm, finishMicro, hp, hframe]
  · simp only [advance_of_no_reset hr, advancePosition, hm]

/-! ## The trace (R186) -/

/-- Where the trace is kept no event was added. -/
theorem grows_of_trace_eq {s t : State} (h : t.trace = s.trace) : ∃ es, t.trace = s.trace ++ es :=
  ⟨[], h.trans (List.append_nil _).symm⟩

/-- Accepting RESET adds its `CS` event (R176). -/
theorem acceptReset_trace {s t : State} (h : acceptReset s = .next t) : t.trace = s.trace ++ [.cs Config.csActive] := by
  rw [acceptReset_eq] at h
  cases h
  rfl

/-- An opcode byte takes no event back (R175). -/
theorem decodeOpcode_trace {b : Byte} {s t : State} (h : decodeOpcode b s = .next t) :
    ∃ es, t.trace = s.trace ++ es := by
  rcases decodeOpcode_cases b s with ⟨_, _, -, -, he⟩ | ⟨-, he⟩ | ⟨-, he⟩ | ⟨-, he⟩ | he <;> rw [he] at h
  case inr.inl => exact ⟨_, acceptReset_trace h⟩
  all_goals cases h; exact grows_of_trace_eq rfl

/-- An operand byte takes no event back (R177). -/
theorem takeOperand_trace {b : Byte} {s t : State} (ha : ArgInv s) (hm : s.mstate = .arg)
    (h : takeOperand b s = .next t) : ∃ es, t.trace = s.trace ++ es := by
  rcases takeOperand_cases ha hm b with ⟨_, he⟩ | he | ⟨-, he⟩ <;> rw [he] at h
  · cases h; exact grows_of_trace_eq rfl
  · cases h; exact ⟨_, rfl⟩
  · rcases takeSettext_cases b s with ⟨_, _, _, _, _, _, -, -, he'⟩ | ⟨_, _, _, -, he'⟩ <;> rw [he'] at h <;> cases h
    · exact grows_of_trace_eq rfl
    · exact ⟨_, rfl⟩

/-- An edge of a running script takes no event back (R180 to R184). -/
theorem runEdge_trace {r : Bool} {s t : State} (hi : Inv s) (hm : s.mstate = .run) (h : runEdge r s = .next t) :
    ∃ es, t.trace = s.trace ++ es := by
  rcases runEdge_cases hi hm h with ⟨_, _, es, rfl⟩ | ⟨-, -, n, -, hnext⟩
  · exact ⟨es, rfl⟩
  · obtain ⟨o, ho, hne⟩ := hi.micro hm
    obtain ⟨-, -, -, -, es, htrace⟩ :=
      startNext_stay (s := s.emit [.wait n]) ((micro_congr _ _ rfl rfl rfl).trans ho) hne hnext
    exact ⟨[.wait n] ++ es, by rw [htrace, State.emit_trace, List.append_assoc]⟩

/-- Settles O45: hardware reset keeps the trace, and in each position an edge only adds to it. -/
theorem traceOnlyGrows : Obligations.TraceOnlyGrows := by
  intro p s t hi h
  cases hp : p.rst with
  | true =>
    rw [clockEdge_rst hp] at h
    cases h
    exact grows_of_trace_eq rfl
  | false =>
    rcases clockEdge_cases hp h with ⟨-, h⟩ | ⟨-, -, h⟩ | ⟨hm, -, h⟩ | ⟨hm, h⟩ | ⟨-, -, rfl⟩
    · exact ⟨_, acceptReset_trace h⟩
    · exact decodeOpcode_trace h
    · exact takeOperand_trace hi.arg hm h
    · exact runEdge_trace hi hm h
    · exact grows_of_trace_eq rfl

/-! ## How long a wait lasts (R184) -/

/-- A run of one clock edge is that edge. -/
theorem clockEdges_single (p : Pins) (s : State) : clockEdges [p] s = clockEdge p s := by
  rw [clockEdges]
  cases clockEdge p s <;> rfl

/-- In the edges of a wait only the timer changes, until it has run down. -/
theorem clockEdges_waiting {qs : List Pins} {s : State} (hm : s.mstate = .run) (hp : s.phase = .wait)
    (hq : ∀ q ∈ qs, q.rst = false) (ht : qs.length < s.timer.toNat) :
    ∃ n, clockEdges qs s = .next { s with timer := n } := by
  induction qs generalizing s with
  | nil => exact ⟨s.timer, rfl⟩
  | cons q qs ih =>
    obtain ⟨hq0, hq⟩ := List.forall_mem_cons.1 hq
    rw [List.length_cons] at ht
    obtain ⟨hne, hpred⟩ := timer_pred (s := s) (n := s.timer.toNat - 2) (by omega)
    rw [clockEdges, clockEdge_run hq0 hm, runEdge_wait_more hp hne, andThen_next]
    exact ih (s := { s with timer := s.timer - 1 }) hm hp hq (by rw [hpred]; omega)

/-- R184: the edges of a whole wait, as many as the timer holds, end it with its `WAIT` event. -/
theorem clockEdges_wait {ps : List Pins} {p : Pins} {s : State} {n : Nat} (hm : s.mstate = .run) (hp : s.phase = .wait)
    (hl : loadedCount s = some n) (hps : ∀ q ∈ ps, q.rst = false) (hrst : p.rst = false)
    (ht : s.timer.toNat = ps.length + 1) :
    clockEdges (ps ++ [p]) s = startNext { s with timer := 1, trace := s.trace ++ [.wait n] } := by
  have hl' : loadedCount { s with timer := 1 } = some n := by
    rw [← hl, loadedCount, loadedCount, micro_congr s.kind s.step (s := s) (t := { s with timer := 1 }) rfl rfl rfl]
  rw [clockEdges_append, clockEdges_countdown ps s hm hp hps ht, andThen_next, clockEdges_single,
    clockEdge_run hrst (by exact hm), runEdge_wait_last (by exact hp) rfl hl']
  rfl

/-- Settles O46: within the wait only the timer changes (`clockEdges_waiting`), which counts down to 1
(`clockEdges_countdown`), and the edge after that ends it (`clockEdges_wait`). -/
theorem waitLastsItsCount : Obligations.WaitLastsItsCount := by
  intro ps p s n hm hp hl hps hrst ht
  refine ⟨fun k t h => ?_, clockEdges_countdown ps s hm hp hps ht, clockEdges_wait hm hp hl hps hrst ht⟩
  have hlen : (ps.take k).length < s.timer.toNat := by
    rw [List.length_take]
    omega
  obtain ⟨m, hwait⟩ := clockEdges_waiting hm hp (fun q hq => hps q (List.mem_of_mem_take hq)) hlen
  cases hwait.symm.trans h
  simp [State.txValid, hp]

/-! ## How long a frame lasts (R188) -/

/-- R36: a byte answered after some idle edges leaves the block where the answer alone would. -/
theorem clockEdges_byte (d : Nat) {c : Bool} {b : Byte} {s t : State} (hm : s.mstate = .run)
    (h : ∀ r, runEdge r s = .next (if r then t else s)) (ps : List Pins) :
    clockEdges (List.replicate d ⟨false, c, b, false⟩ ++ ⟨false, c, b, true⟩ :: ps) s = clockEdges ps t := by
  have hidle : clockEdge ⟨false, c, b, false⟩ s = .next s := (clockEdge_run rfl hm).trans (h false)
  have hanswer : clockEdge ⟨false, c, b, true⟩ s = .next t := (clockEdge_run rfl hm).trans (h true)
  rw [clockEdges_append, clockEdges_stay d _ s hidle, andThen_next, clockEdges, hanswer, andThen_next]

/-- R182, R184: after the third byte, as many edges as the settle end the frame. -/
theorem clockEdges_settle {ws : List Pins} {s : State} (hm : s.mstate = .run)
    (hl : micro s.kind s.step s = some (.write s.ch s.val)) (hp : s.phase = .wait) (hws : ∀ q ∈ ws, q.rst = false)
    (hlen : ws.length = settle s.ch s.val) (ht : s.timer = BitVec.ofNat Config.timerWidth (settle s.ch s.val)) :
    clockEdges ws s = startNext { s with timer := 1, trace := s.trace ++ [.wait (settle s.ch s.val)] } := by
  obtain ⟨h0, hlt, -⟩ := settle_bounds s.ch s.val
  obtain ⟨ps, p, rfl⟩ : ∃ ps p, ws = ps ++ [p] :=
    (List.eq_nil_or_concat' ws).resolve_left fun hnil => h0 (by rw [← hlen, hnil]; rfl)
  rw [List.length_append, List.length_singleton] at hlen
  refine clockEdges_wait hm hp (by rw [loadedCount, hl]) (fun q hq => hws q (by simp [hq])) (hws p (by simp)) ?_
  rw [ht, BitVec.toNat_ofNat, Nat.mod_eq_of_lt hlt, hlen]

/-- Settles O47: three bytes, each answered after its idle edges (`clockEdges_byte`), and the settle
(`clockEdges_settle`); what they leave is the whole `WRITE`. -/
theorem frameOccupiesItsPeriods : Obligations.FrameOccupiesItsPeriods := by
  intro d1 d2 d3 c b ws s hm hp hl hws hlen
  simp only [List.append_assoc, List.cons_append, List.nil_append]
  refine Eq.trans (clockEdges_byte d1 hm (runEdge_b1 hp) _) ?_
  refine Eq.trans (clockEdges_byte d2 (by exact hm) (runEdge_b2 rfl) _) ?_
  refine Eq.trans (clockEdges_byte d3 (by exact hm) (runEdge_b3 rfl) _) ?_
  refine Eq.trans (clockEdges_settle (by exact hm) (micro_latched hl rfl rfl rfl) rfl hws (by exact hlen) rfl) ?_
  rw [← startNext_phase .wait (s := s.write _ _)]
  simp [State.write, frameEvents_eq]

end Sys2Proof.Machine
end

section
/-! 60_exceptions.md: the block has no exception (R200): no clock edge and no step stops, and every command returns. -/

namespace Sys2Proof.Machine

/-! ## A running script (R180 to R184) -/

/-- While a script runs there is a count the timer was loaded with. -/
theorem Inv.loadedCount_some {s : State} (hi : Inv s) (hm : s.mstate = .run) : ∃ n, Machine.loadedCount s = some n := by
  rcases hi.loadedCount hm with hl | ⟨n, -, hl⟩ <;> exact ⟨_, hl⟩

/-- While a script runs it has a next position, whatever the wait that ends left in the timer and in the trace (R178). -/
theorem Inv.startNext_answers {s : State} (hi : Inv s) (hm : s.mstate = .run) (n : BitVec Config.timerWidth)
    (es : List Event) : ∃ t, startNext { s with timer := n, trace := es } = .next t := by
  obtain ⟨o, ho, hne⟩ := hi.micro hm
  exact startNext_ex ((micro_congr _ _ rfl rfl rfl).trans ho) hne

/-- `run_edge` answers a next state in every running state that meets the invariant: offering a byte always, and in a
wait because the position holds its count and is not the `END`. -/
theorem runEdge_ex {s : State} (hi : Inv s) (hm : s.mstate = .run) (r : Bool) : ∃ t, runEdge r s = .next t := by
  cases hp : s.phase with
  | idle => exact absurd hp (hi.phase.2 hm)
  | b1 => exact ⟨_, runEdge_b1 hp r⟩
  | b2 => exact ⟨_, runEdge_b2 hp r⟩
  | b3 => exact ⟨_, runEdge_b3 hp r⟩
  | wait =>
    by_cases ht : s.timer = 1
    · obtain ⟨n, hn⟩ := hi.loadedCount_some hm
      rw [runEdge_wait_last hp ht hn]
      exact hi.startNext_answers hm s.timer (s.trace ++ [.wait n])
    · exact ⟨_, runEdge_wait_more hp ht r⟩

/-- Finishing a micro-operation answers a next state in every running state that meets the invariant. -/
theorem finishMicro_ex {s : State} (hi : Inv s) (hm : s.mstate = .run) : ∃ t, finishMicro s = .next t := by
  rw [finishMicro_eq hi hm]
  exact hi.startNext_answers hm 1 _

/-! ## No clock edge stops -/

/-- Settles O35: hardware reset always answers, and without it each position of R173 does: `acceptReset_eq`,
`decodeOpcode_ex`, `takeOperand_ex`, `runEdge_ex`. -/
theorem clockEdgeNeverStops : Obligations.ClockEdgeNeverStops := by
  intro p s hi
  cases hp : p.rst with
  | true => exact ⟨_, clockEdge_rst hp s⟩
  | false =>
    cases hm : s.mstate with
    | boot => exact ⟨_, (clockEdge_boot hp hm).trans (acceptReset_eq s)⟩
    | op =>
      rw [clockEdge_op hp hm]
      split
      · exact decodeOpcode_ex p.cmdByte s
      · exact ⟨s, rfl⟩
    | arg =>
      rw [clockEdge_arg hp hm]
      split
      · exact takeOperand_ex hi.arg hm p.cmdByte
      · exact ⟨s, rfl⟩
    | run =>
      rw [clockEdge_run hp hm]
      exact runEdge_ex hi hm p.txReady

/-! ## No step stops -/

/-- A step of an idle block answers a next state, from every state (R87, R175). -/
theorem fetchCommand_ex (s : State) : ∃ t, fetchCommand s = .next t := by
  unfold fetchCommand
  split
  next i n _ => exact exec_ex i { s with hostIn := s.hostIn.drop n }
  · exact ⟨_, rfl⟩
  · split
    next b rest _ => exact decodeOpcode_ex b { s with hostIn := rest }
    all_goals exact ⟨s, rfl⟩

/-- A step of a collecting block answers a next state while the invariant holds (R177). -/
theorem fetchOperand_ex {s : State} (ha : ArgInv s) (hm : s.mstate = .arg) : ∃ t, fetchOperand s = .next t := by
  unfold fetchOperand
  split
  next b rest _ => exact takeOperand_ex (s := { s with hostIn := rest }) ha hm b
  all_goals exact ⟨s, rfl⟩

/-- Settles O52: a step that a reset begins is that reset, and else each position of R173 answers: `exec_ex`,
`fetchCommand_ex`, `fetchOperand_ex`, `finishMicro_ex`. -/
theorem stepNeverStops : Obligations.StepNeverStops := by
  intro s hi
  rcases head_rst_or_not s with ⟨rest, hh⟩ | hr
  · exact ⟨_, step_rst hh⟩
  · rw [advance_of_no_reset hr, advancePosition]
    cases hm : s.mstate with
    | boot => exact exec_ex .reset s
    | op => exact fetchCommand_ex s
    | arg => exact fetchOperand_ex hi.arg hm
    | run => exact finishMicro_ex hi hm

/-! ## Every command returns -/

/-- R117: SENDD adds the frame of its value and `RET`. -/
theorem exec_sendd (v : Byte) (s : State) : ∃ t, exec (.sendd v) s = .next t ∧
    t.trace = s.trace ++ (frameEvents 1 v ++ [.ret]) := by
  obtain ⟨t, hexec, htrace, -⟩ :=
    exec_oneFrame (show exec (.sendd v) s = .next (({ s with op := 2 }.write 1 v).complete .one 1) from rfl)
  exact ⟨t, hexec, htrace⟩

/-- Every command adds its own events and then `RET`; SETTEXT adds `RET` alone. -/
theorem exec_returns {i : Instr} (hc : i.isCommand = true) (s : State) :
    ∃ t es, exec i s = .next t ∧ t.trace = s.trace ++ es ++ [.ret] := by
  cases i with
  | sendi v =>
    obtain ⟨t, hexec, htrace, -⟩ := exec_sendi v s
    exact ⟨t, _, hexec, htrace⟩
  | sendd v =>
    obtain ⟨t, hexec, htrace⟩ := exec_sendd v s
    exact ⟨t, _, hexec, htrace.trans (List.append_assoc _ _ _).symm⟩
  | reset =>
    obtain ⟨t, hexec, htrace, -⟩ := exec_reset s
    exact ⟨t, _, hexec, htrace.trans (List.append_assoc _ _ _).symm⟩
  | clear =>
    obtain ⟨t, hexec, htrace, -⟩ := exec_clear s
    exact ⟨t, _, hexec, htrace.trans (by rw [List.append_assoc s.trace])⟩
  | setbl imm8 => exact ⟨_, [.bl _], exec_setbl imm8 s, (List.append_assoc s.trace [_] [_]).symm⟩
  | settext row col text =>
    obtain ⟨t, hexec, htrace, -⟩ := exec_settext row col text s
    exact ⟨t, [], hexec, by rw [htrace, List.append_nil]⟩
  | render =>
    obtain ⟨t, hexec, htrace, -⟩ := exec_render s
    exact ⟨t, _, hexec, htrace⟩
  | frameI _ => cases hc
  | frameD _ => cases hc

/-- Settles O17: the trace is `exec_returns`, and every command leaves the block in `M_OP` (`exec_mstate`). -/
theorem everyCommandReturns : Obligations.EveryCommandReturns := by
  intro i s hc
  obtain ⟨t, es, hexec, htrace⟩ := exec_returns hc s
  exact ⟨t, es, hexec, htrace, exec_mstate hc hexec⟩

end Sys2Proof.Machine
end

section
/-! 70_reset_and_hazards.md: hardware reset (R230), the RESET sequence that the block runs by itself after it (R231), and
that no command byte is taken before that sequence has ended (R232). -/

namespace Sys2Proof.Machine

/-! ## Hardware reset (R230) -/

/-- Resetting a block that has just been reset changes nothing. -/
@[simp] theorem hardReset_hardReset (s : State) : s.hardReset.hardReset = s.hardReset := rfl

/-- R171 after hardware reset: the block is busy, and it neither takes a command byte nor offers a byte. -/
theorem hardReset_status (s : State) :
    s.hardReset.busy = true ∧ s.hardReset.cmdReady = false ∧ s.hardReset.txValid = false := ⟨rfl, rfl, rfl⟩

/-- Settles O31: an edge with `rst = 1` is `hardReset` in every position (`clockEdge_rst`), and a second one finds the
registers at their reset values (`hardReset_hardReset`). -/
theorem hardwareResetWins : Obligations.HardwareResetWins := by
  refine fun s => ⟨fun p hp => clockEdge_rst hp s, fun p t hp h => ?_⟩
  cases (clockEdge_rst hp s).symm.trans h
  obtain ⟨hbusy, hready, hvalid⟩ := hardReset_status s
  exact ⟨hbusy, hready, hvalid, by rw [clockEdge_rst hp, hardReset_hardReset]⟩

/-! ## The automatic RESET (R231) -/

/-- The opcode byte 03 is that of RESET (R175, R176). -/
theorem decodeOpcode_reset (s : State) : decodeOpcode 0x03 s = acceptReset s := rfl

/-- Without a reset offered, a step from `M_BOOT` is the whole RESET sequence (R231, log 1). -/
theorem step_boot {s : State} (hr : ∀ rest, s.hostIn ≠ .rst :: rest) (hm : s.mstate = .boot) :
    step s = exec .reset s := by
  rw [advance_of_no_reset hr, advancePosition, hm]

/-- R130: the events of RESET begin with the line asserted and end with `RET`. -/
theorem resetEvents_ends :
    resetEvents.head? = some (.cs Config.csActive) ∧ resetEvents.getLast? = some .ret := by decide

/-- R130, R231: the 15 bytes RESET hands to the transport, one frame after the other. -/
theorem txBytes_resetEvents : txBytes resetEvents =
    [0xF8, 0x30, 0x00, 0xF8, 0x30, 0x00, 0xF8, 0x00, 0xC0, 0xF8, 0x00, 0x10, 0xF8, 0x00, 0x60] := by decide

/-- R35, R171: the block takes command bytes in `M_OP` and in `M_ARG`, and nowhere else. -/
theorem cmdReady_iff {s : State} : s.cmdReady = true ↔ s.mstate = .op ∨ s.mstate = .arg := by
  simp [State.cmdReady]

/-- Settles O32: in `M_BOOT` the edge accepts RESET as the byte 03 does (`clockEdge_boot`, `decodeOpcode_reset`); the
step is RESET (`step_boot`), which adds `resetEvents` (`exec_reset`) and leaves the block in `M_OP` (`exec_mstate`). -/
theorem automaticResetRuns : Obligations.AutomaticResetRuns := by
  refine fun s hm => ⟨fun p hp => ⟨clockEdge_boot hp hm, (decodeOpcode_reset s).symm⟩, fun hr => ?_⟩
  obtain ⟨t, hexec, htrace, -⟩ := exec_reset s
  obtain ⟨hhead, hlast⟩ := resetEvents_ends
  have hstep : step s = exec .reset s := step_boot hr hm
  have hboot : s.cmdReady = false := by simp [State.cmdReady, hm]
  have hready : t.cmdReady = true := cmdReady_iff.2 (.inl (exec_mstate rfl hexec))
  exact ⟨hboot, hstep, t, resetEvents, hstep.trans hexec, htrace, hhead, hlast, txBytes_resetEvents, hready⟩

/-! ## No command finds the block uninitialised (R232) -/

/-- Settles O44: where the block takes a command byte (`cmdReady_iff`) it neither boots nor runs a script, so R189 (e)
leaves it initialised (`Inv.ready`). -/
theorem commandsFindReady : Obligations.CommandsFindReady := by
  intro s hi hready
  have hne : s.init ≠ .uninit := by
    rcases cmdReady_iff.1 hready with hm | hm <;> exact hi.ready (by simp [hm]) (by simp [hm])
  cases hinit : s.init with
  | ready => rfl
  | uninit => exact absurd hinit hne

end Sys2Proof.Machine
end
